-- ==== Sys2Proof/Word.lean ====
section
/-! DEFINITION. The machine word and the small bit vectors of the Risc-O core (spec/00_scope.md section 5). -/

namespace Sys2Proof

/-- A word: every register, memory cell, address and instruction is 16 bits wide (`XLEN`, R4, R21, R50, R80). -/
abbrev Word := BitVec 16

/-- A character code, and the byte the character output port emits (R58, R60). -/
abbrev Byte := BitVec 8

end Sys2Proof
end

