-- ==== Sys2Proof/Syntax.lean ====
section
/-! DEFINITION. The instructions: one constructor per row of spec/opcode_table.json, its fields those of the row's
format (R82 to R88, R90 of spec/30_encoding.md). -/

namespace Sys2Proof

/-- A register number 0..15, the value of a 4-bit register field (R21, R82). -/
abbrev Reg := Fin 16

/-- The instruction set (R92). `ign` holds the bits a format does not use (R94): no meaning looks at them, and with
them decoding loses no bit of the word. -/
inductive Instr where
  /-- HALT, format H: the sentinel word 0xFFFF (R113). -/
  | halt
  /-- JMP, format J (R130). -/
  | jmp  (off12 : BitVec 12)
  /-- JEQ, format B, cc = 0 (R131). -/
  | jeq  (off10 : BitVec 10)
  /-- JNE, format B, cc = 1 (R132). -/
  | jne  (off10 : BitVec 10)
  /-- JLT, format B, cc = 2 (R133). -/
  | jlt  (off10 : BitVec 10)
  /-- JGE, format B, cc = 3 (R134). -/
  | jge  (off10 : BitVec 10)
  /-- LDR, format L (R140). -/
  | ldr  (rd rm : Reg) (imm4 : BitVec 4)
  /-- STR, format S: the offset stands first, in bits 15..12 (R84, R141). -/
  | str  (imm4hi : BitVec 4) (rm rn : Reg)
  /-- MOV, format M (R142). -/
  | mov  (rd : Reg) (imm8 : BitVec 8)
  /-- ADD, format R (R150). -/
  | add  (rd rm rn : Reg)
  /-- ADDI, format I (R151). -/
  | addi (rd rm : Reg) (imm4 : BitVec 4)
  /-- SUB, format R (R152). -/
  | sub  (rd rm rn : Reg)
  /-- SUBI, format I (R153). -/
  | subi (rd rm : Reg) (imm4 : BitVec 4)
  /-- AND, format R (R160). -/
  | and  (rd rm rn : Reg)
  /-- OR, format R (R161). -/
  | or   (rd rm rn : Reg)
  /-- SHR, format I (R162). -/
  | shr  (rd rm : Reg) (imm4 : BitVec 4)
  /-- SHL, format I (R163). -/
  | shl  (rd rm : Reg) (imm4 : BitVec 4)
  /-- CMP, format C: bits 15..12 ignored (R164). -/
  | cmp  (ign : BitVec 4) (rm rn : Reg)
  /-- PUSH, format P: bits 15..8 ignored (R170). -/
  | push (ign : BitVec 8) (rn : Reg)
  /-- POP, format Q: bits 11..4 ignored (R171). -/
  | pop  (rd : Reg) (ign : BitVec 8)
  deriving DecidableEq, Repr

end Sys2Proof
end

