-- ==== Sys2Proof/WellFormed.lean ====
section
/-! DEFINITION. Which terms of `Instr` stand for a word. Register numbers and immediates are in range by their types;
one term is left to refuse. -/

namespace Sys2Proof

/-- The one ill-formed term: POP R15 with all ignored bits set. Its word would be 0xFFFF, which is HALT (R91, R95). -/
def Instr.wellFormed : Instr → Bool
  | .pop rd ign => !(decide (rd = 15) && decide (ign = 0xFF#8))
  | .halt | .jmp _ | .jeq _ | .jne _ | .jlt _ | .jge _ | .ldr _ _ _ | .str _ _ _ | .mov _ _
  | .add _ _ _ | .addi _ _ _ | .sub _ _ _ | .subi _ _ _ | .and _ _ _ | .or _ _ _
  | .shr _ _ _ | .shl _ _ _ | .cmp _ _ _ | .push _ _ => true

end Sys2Proof
end

