-- ==== Sys2Proof/Decode.lean ====
section
/-! DEFINITION. The decoder and the encoder, both from the field positions of R81 to R88 and the format table of R90
(spec/30_encoding.md). Every word decodes (R93), so the decoder is a total function and rejects nothing. -/

namespace Sys2Proof

/-- `HALT_WORD` (R4): the reserved all-ones sentinel. -/
def haltWord : Word := 0xFFFF

/-- A register number from the bits of its field (R82). -/
def Reg.ofBits (b : BitVec 4) : Reg := ⟨b.toNat, b.isLt⟩

/-- The bits of a register number's field (R82). -/
def Reg.toBits (r : Reg) : BitVec 4 := BitVec.ofNat 4 r.val

/-- Opcode, `w[3:0]` (R81). -/
def opcodeOf (w : Word) : BitVec 4 := w.extractLsb' 0 4

/-- `rd = w[15:12]` (R82). -/
def rdOf (w : Word) : Reg := Reg.ofBits (w.extractLsb' 12 4)

/-- `rm = w[11:8]` (R82). -/
def rmOf (w : Word) : Reg := Reg.ofBits (w.extractLsb' 8 4)

/-- `rn = w[7:4]` (R82). -/
def rnOf (w : Word) : Reg := Reg.ofBits (w.extractLsb' 4 4)

/-- `imm4 = w[7:4]` (R83). -/
def imm4Of (w : Word) : BitVec 4 := w.extractLsb' 4 4

/-- `imm4hi = w[15:12]` (R84), also the bits CMP ignores (R94). -/
def imm4hiOf (w : Word) : BitVec 4 := w.extractLsb' 12 4

/-- `imm8 = w[11:4]` (R85), also the bits POP ignores (R94). -/
def imm8Of (w : Word) : BitVec 8 := w.extractLsb' 4 8

/-- `w[15:8]`, the bits PUSH ignores (R94). -/
def high8Of (w : Word) : BitVec 8 := w.extractLsb' 8 8

/-- `off10 = w[13:4]` (R86). -/
def off10Of (w : Word) : BitVec 10 := w.extractLsb' 4 10

/-- `off12 = w[15:4]` (R87). -/
def off12Of (w : Word) : BitVec 12 := w.extractLsb' 4 12

/-- `cc = w[15:14]` (R88). -/
def ccOf (w : Word) : BitVec 2 := w.extractLsb' 14 2

/-- The sub-dispatch of opcode 1 on the condition code (R88, R136): 0 EQ, 1 NE, 2 LT, and 3, the only value left, GE. -/
def decodeCond (w : Word) : Instr :=
  match (ccOf w).toNat with
  | 0 => .jeq (off10Of w)
  | 1 => .jne (off10Of w)
  | 2 => .jlt (off10Of w)
  | _ => .jge (off10Of w)

/-- The opcode map (R92), for a word that is not the sentinel. The last arm is 15, the only nibble left. -/
def decodeOpcode (w : Word) : Instr :=
  match (opcodeOf w).toNat with
  | 0  => .jmp (off12Of w)
  | 1  => decodeCond w
  | 2  => .ldr (rdOf w) (rmOf w) (imm4Of w)
  | 3  => .str (imm4hiOf w) (rmOf w) (rnOf w)
  | 4  => .mov (rdOf w) (imm8Of w)
  | 5  => .add (rdOf w) (rmOf w) (rnOf w)
  | 6  => .addi (rdOf w) (rmOf w) (imm4Of w)
  | 7  => .sub (rdOf w) (rmOf w) (rnOf w)
  | 8  => .subi (rdOf w) (rmOf w) (imm4Of w)
  | 9  => .and (rdOf w) (rmOf w) (rnOf w)
  | 10 => .or (rdOf w) (rmOf w) (rnOf w)
  | 11 => .shr (rdOf w) (rmOf w) (imm4Of w)
  | 12 => .shl (rdOf w) (rmOf w) (imm4Of w)
  | 13 => .cmp (imm4hiOf w) (rmOf w) (rnOf w)
  | 14 => .push (high8Of w) (rnOf w)
  | _  => .pop (rdOf w) (imm8Of w)

/-- The decoder: the sentinel is tested before the opcode is looked at (R91, R113). -/
def decode (w : Word) : Instr :=
  if w = haltWord then .halt else decodeOpcode w

/-- Formats R, I, L, S and C: three nibbles over the opcode (R90). -/
def packNibbles (n3 n2 n1 op : BitVec 4) : Word := n3 ++ n2 ++ n1 ++ op

/-- Format J: a 12-bit offset over the opcode (R87, R90). -/
def packOff12 (off : BitVec 12) (op : BitVec 4) : Word := off ++ op

/-- Format B: condition code, 10-bit offset, opcode (R86, R88, R90). -/
def packCond (cc : BitVec 2) (off : BitVec 10) (op : BitVec 4) : Word := cc ++ off ++ op

/-- Formats M and Q: a nibble, 8 bits, the opcode (R85, R90). -/
def packNibbleByte (n : BitVec 4) (b : BitVec 8) (op : BitVec 4) : Word := n ++ b ++ op

/-- Format P: 8 bits, a nibble, the opcode (R90). -/
def packByteNibble (b : BitVec 8) (n : BitVec 4) (op : BitVec 4) : Word := b ++ n ++ op

/-- The word of an instruction (R90, R92). -/
def encode : Instr → Word
  | .halt => haltWord
  | .jmp off => packOff12 off 0x0
  | .jeq off => packCond 0 off 0x1
  | .jne off => packCond 1 off 0x1
  | .jlt off => packCond 2 off 0x1
  | .jge off => packCond 3 off 0x1
  | .ldr rd rm imm => packNibbles rd.toBits rm.toBits imm 0x2
  | .str imm rm rn => packNibbles imm rm.toBits rn.toBits 0x3
  | .mov rd imm => packNibbleByte rd.toBits imm 0x4
  | .add rd rm rn => packNibbles rd.toBits rm.toBits rn.toBits 0x5
  | .addi rd rm imm => packNibbles rd.toBits rm.toBits imm 0x6
  | .sub rd rm rn => packNibbles rd.toBits rm.toBits rn.toBits 0x7
  | .subi rd rm imm => packNibbles rd.toBits rm.toBits imm 0x8
  | .and rd rm rn => packNibbles rd.toBits rm.toBits rn.toBits 0x9
  | .or rd rm rn => packNibbles rd.toBits rm.toBits rn.toBits 0xA
  | .shr rd rm imm => packNibbles rd.toBits rm.toBits imm 0xB
  | .shl rd rm imm => packNibbles rd.toBits rm.toBits imm 0xC
  | .cmp ign rm rn => packNibbles ign rm.toBits rn.toBits 0xD
  | .push ign rn => packByteNibble ign rn.toBits 0xE
  | .pop rd ign => packNibbleByte rd.toBits ign 0xF

/-- The instruction the decoder reads from a table row's word of `nbits` bits: instructions are one 16-bit word and no
longer (R80), so a longer word is none. -/
def decodeTableWord (nbits w : Nat) : Option Instr :=
  if nbits ≤ 16 then some (decode (BitVec.ofNat 16 (w % 2 ^ nbits))) else none

end Sys2Proof
end

