-- ==== Sys2Proof/Config.lean ====
section
/-! DEFINITION. The free values: what the spec leaves open and no proof may evaluate. None has a body.
The parameters the spec does give a value (R4 of spec/00_scope.md) are constants of Machine/Params.lean. -/

namespace Sys2Proof

/-- `CHAR_IN_AT_END` (R4, R58, D20, U2): what the `n`-th read at end of input gives on the character port:
`none`, the read never completes; `some v`, it returns the word `v`. -/
opaque Config.charInAtEnd (n : Nat) : Option Word

/-- The same for the integer port (R59, U3): the integer the `n`-th read at end of input delivers, if it completes. -/
opaque Config.intInAtEnd (n : Nat) : Option Int

/-- Whether hexadecimal digits A to F are printed in capitals (R183, R196, N9: not stated). Text only. -/
opaque Config.hexCapitals : Bool

/-- How the index of a register is written in a dump line (R196, N9: the radix of `<i>` is not stated). Text only. -/
opaque Config.indexText (i : Nat) : String

/-- The line of a dump for one word of the stack region (R196, N9: its format is not stated). Text only. -/
opaque Config.stackLine (address : Nat) (value : Word) : String

/-- The blank or header lines before part `part` of a dump, 0 the registers, 1 the flags, 2 the stack region, 3 the
accessed cells, which may depend on whether the part is empty (R196, N9: not stated whether there are any). Text only. -/
opaque Config.dumpHeading (part : Nat) (empty : Bool) : List String

/-- The character a byte prints as (R60). The source gives only 0x41, 'A' (R60, section 2 of
spec/93_implementation_defined.md). Text only. -/
opaque Config.otherGlyph (b : Byte) : String

end Sys2Proof
end

