-- ==== Sys2Proof/Machine/Params.lean ====
section
/-! DEFINITION. The named parameters of R4 (spec/00_scope.md) at the values the spec gives them.
`XLEN` and `OPCODE_BITS` are in the types `Word` and `BitVec 4`, `NREGS` in `Reg`, `HALT_WORD` in Decode.lean,
`CHAR_IN_AT_END` is the free value `Config.charInAtEnd`. The literals are unaudited (U8, log 20). -/

namespace Sys2Proof.Machine

/-- `MEM_WORDS` (R4, R50). -/
def memWords : Nat := 8192

/-- `SP_REG` (R4, R24). -/
def spReg : Reg := 14

/-- `PC_REG` (R4, R25). -/
def pcReg : Reg := 15

/-- `SP_RESET` (R4): one past the top of memory, the empty stack. -/
def spReset : Word := 0x2000

/-- `PC_RESET` (R4): the entry point. -/
def pcReset : Word := 0x0000

/-- `IO_CHAR_IN` (R4, R53). -/
def ioCharIn : Word := 0xF000

/-- `IO_CHAR_OUT` (R4, R53). -/
def ioCharOut : Word := 0xF001

/-- `IO_INT_IN` (R4, R53). -/
def ioIntIn : Word := 0xF002

/-- `IO_INT_OUT` (R4, R53). -/
def ioIntOut : Word := 0xF003

/-- `MOV_IMM8_SIGN_EXTEND` (R4, R142). The spec follows the opcode table: false (C2, D3). DESIGN CHOICE of the spec,
log 2: unsafe for immediates of 0x80 and above. -/
def movImm8SignExtend : Bool := false

/-- `HALT_ADVANCES_PC` (R4, R113). The spec follows the algorithm of the cycle: true (C3, D5). DESIGN CHOICE of the
spec, log 3: unsafe in the final value of register 15 only. -/
def haltAdvancesPc : Bool := true

/-- `STACK_MARKS_ACCESSED` (R4, R63, R64). The spec's default: false (D6). DESIGN CHOICE of the spec, log 4: unsafe in
`accessed` and the dump only. -/
def stackMarksAccessed : Bool := false

end Sys2Proof.Machine
end

