-- ==== Sys2Proof/Machine/State.lean ====
section
/-! DEFINITION. The state of the machine as plain data (R20, R37, R38 of spec/10_state.md), the reasons a step can stop,
and the state after reset (R39). -/

namespace Sys2Proof.Machine

/-- A memory cell that is listed: its word address and its contents. The unit is the 16-bit word (R50, R54, log 18). -/
abbrev MemCell := Nat × Word

/-- The memory array: the cells that are not 0, addresses strictly rising (`Memory.wf` in Ops.lean). An unlisted cell is
0, its reset value (R39). -/
abbrev Memory := List MemCell

/-- A set of memory addresses, strictly rising (`AddrSet.wf` in Ops.lean). -/
abbrev AddrSet := List Nat

/-- Run status (R34). -/
inductive RunStatus where
  | running
  | halted
  | aborted
  deriving DecidableEq, Repr

/-- One item of the external input stream: what it delivers to the port that reads it. Each read consumes one item
(R6(3), R58, R59). DESIGN CHOICE, log 13: unsafe only for a claim that reads one item through both ports. -/
structure InputItem where
  /-- Read by the character port: the character's code (R58, D20: 0..255). -/
  code   : Byte
  /-- Read by the integer port: the integer, or `none` where the text is no number (R59). -/
  number : Option Int
  deriving DecidableEq, Repr

/-- A state dump (R196): the 16 registers, Z and C, the stack region from the top down, the accessed cells in ascending
order. -/
structure Dump where
  regs     : Vector Word 16
  z        : Bool
  c        : Bool
  stack    : List MemCell
  accessed : List MemCell
  deriving DecidableEq, Repr

/-- One event of the diagnostic stream (R62, R183, R196). -/
inductive Event where
  /-- `In(char, value)`: the word returned (R58). -/
  | inChar (value : Word)
  /-- `In(int, value)`: the integer read, before it is truncated (R59). -/
  | inInt (value : Int)
  /-- `Out(char, byte)` (R60). -/
  | outChar (byte : Byte)
  /-- `Out(int, value)`: the word as a signed integer (R61). -/
  | outInt (value : Int)
  /-- `Dump(...)` (R196). -/
  | dump (d : Dump)
  /-- `Abort(A)` (R183). -/
  | abort (pc : Word)
  deriving DecidableEq, Repr

/-- Everything the machine holds. The first seven fields are the core's state, complete by R20; the next four are the
inputs and outputs of a run (R37, R38); the last is the model's own counter of free values (log 14). -/
structure State where
  /-- `x[0..15]` (R21); 14 is SP, 15 is PC. -/
  regs        : Vector Word 16
  /-- `mem[0..8191]` (R36, R50). -/
  mem         : Memory
  /-- `accessed[0..8191]` (R35): the addresses whose bit is 1. -/
  accessed    : AddrSet
  /-- The flag Z (R30). -/
  z           : Bool
  /-- The flag C (R30). -/
  c           : Bool
  /-- `next_pc` (R26). -/
  nextPc      : Word
  /-- `status` (R34). -/
  status      : RunStatus
  /-- The breakpoint set (R38, R193). -/
  breakpoints : AddrSet
  /-- The items of the input stream that have arrived and are not read, the next one first (R37). -/
  input       : List InputItem
  /-- The input stream delivers nothing after `input` (R62, U2, U3). -/
  inputEnded  : Bool
  /-- The diagnostic stream so far, oldest first (R6(5), R37). -/
  diag        : List Event
  /-- The model's own: how many free values were drawn at end of input (log 14). -/
  draws       : Nat
  deriving DecidableEq, Repr

/-- Why the machine stops with a fault. -/
inductive Fault where
  /-- Raised by the cycle (`State.overrun`) when register 15 is at or beyond `MEM_WORDS` at the start of a cycle (R111,
  R181), and again by a machine that is already ABORTED (R34). It names the address (D11) and carries the state the run
  is left in (R182). Safe: the spec ends the run there too. -/
  | pcOutOfBounds (pc : Word) (final : State)
  deriving DecidableEq, Repr

/-- Why an instruction has no meaning. -/
inductive Refusal where
  /-- An instruction whose arm has no meaning yet. Raised by no arm of this model: every word has a meaning (R93).
  Safe. -/
  | notModelled (mnemonic : String)
  deriving DecidableEq, Repr

/-- The machine right after reset, before the external loader runs (R39, R210). The values of the flags, `next_pc` and
`accessed` are those of D17 (log 16); nothing has arrived from the environment yet (log 21). -/
def State.reset : State where
  regs        := #v[0, 0, 0, 0, 0, 0, 0, 0, 0, 0, 0, 0, 0, 0, spReset, pcReset]
  mem         := []
  accessed    := []
  z           := false
  c           := false
  nextPc      := 0
  status      := .running
  breakpoints := []
  input       := []
  inputEnded  := false
  diag        := []
  draws       := 0

end Sys2Proof.Machine
end

