-- ==== Sys2Proof/Machine/Ops.lean ====
section
/-! DEFINITION. The named operations over memory, registers, the I/O router, the stack and the cycle, written once
(spec/20_memory.md, 40_cycle_halt.md, 60_exceptions.md). Every meaning goes through them. -/

namespace Sys2Proof.Machine

/-! ### Memory: a list of cells in one canonical form -/

/-- The canonical form: addresses strictly rising and inside the array, no cell that holds 0. -/
abbrev Memory.wf (m : Memory) : Prop :=
  m.Pairwise (fun p q => p.1 < q.1) ∧ ∀ p ∈ m, p.1 < memWords ∧ p.2 ≠ 0

/-- The contents of cell `a`; an unlisted cell is 0 (R39). -/
def Memory.read : Memory → Nat → Word
  | [], _ => 0
  | (b, v) :: m, a => if b = a then v else Memory.read m a

/-- Put a cell before the first cell with a higher address. -/
def Memory.place (a : Nat) (v : Word) : Memory → Memory
  | [] => [(a, v)]
  | (b, w) :: m => if a < b then (a, v) :: (b, w) :: m else (b, w) :: Memory.place a v m

/-- Make cell `a` hold `v`; writing 0 leaves it unlisted. -/
def Memory.write (m : Memory) (a : Nat) (v : Word) : Memory :=
  let rest := m.filter (fun p => p.1 ≠ a)
  if v = 0 then rest else Memory.place a v rest

/-! ### Sets of addresses: a strictly rising list -/

/-- The canonical form: strictly rising, inside the array. -/
abbrev AddrSet.wf (l : AddrSet) : Prop :=
  l.Pairwise (fun a b => a < b) ∧ ∀ a ∈ l, a < memWords

/-- Put an address before the first higher one. -/
def AddrSet.place (a : Nat) : AddrSet → AddrSet
  | [] => [a]
  | b :: l => if a < b then a :: b :: l else b :: AddrSet.place a l

/-- Add an address to the set. -/
def AddrSet.add (l : AddrSet) (a : Nat) : AddrSet :=
  if a ∈ l then l else AddrSet.place a l

/-! ### Registers, flags, staging -/

/-- `x[i]` (R21, R27). No register is hard-wired (R23). -/
def State.reg (s : State) (r : Reg) : Word := s.regs[r]

/-- `x[i] <- v` (R22). Register 15 is written like any other; the commit of the same cycle replaces it (R28). -/
def State.setReg (s : State) (r : Reg) (v : Word) : State := { s with regs := s.regs.set r v }

/-- The program counter, register 15 (R25). -/
def State.pc (s : State) : Word := s.reg pcReg

/-- The stack pointer, register 14 (R24). -/
def State.sp (s : State) : Word := s.reg spReg

/-- Write both flags; no instruction writes one alone (R30). -/
def State.setFlags (s : State) (z c : Bool) : State := { s with z := z, c := c }

/-- `next_pc <- v` (R26, R115). -/
def State.stagePc (s : State) (v : Word) : State := { s with nextPc := v }

/-- `status <- st` (R34). -/
def State.setStatus (s : State) (st : RunStatus) : State := { s with status := st }

/-- The contents of a memory cell. -/
def State.cell (s : State) (a : Nat) : Word := s.mem.read a

/-- Write a memory cell. -/
def State.setCell (s : State) (a : Nat) (v : Word) : State := { s with mem := s.mem.write a v }

/-- `accessed[a] <- 1` (R35). -/
def State.markAccessed (s : State) (a : Nat) : State := { s with accessed := s.accessed.add a }

/-- Append one event to the diagnostic stream (R62). -/
def State.emit (s : State) (e : Event) : State := { s with diag := s.diag ++ [e] }

/-- Consume one item: `rest` is what is left of the input stream (R37). -/
def State.setInput (s : State) (rest : List InputItem) : State := { s with input := rest }

/-- One free value was drawn (log 14). -/
def State.countDraw (s : State) : State := { s with draws := s.draws + 1 }

/-! ### The input and output ports (R58 to R62) -/

/-- The character port answers with `v`: the value is echoed and returned (R58). -/
def State.answerChar (s : State) (v : Word) : Word × State := (v, s.emit (.inChar v))

/-- The integer port answers with `n`: the integer is echoed and returned truncated to 16 bits (R59). -/
def State.answerInt (s : State) (n : Int) : Word × State := (BitVec.ofInt 16 n, s.emit (.inInt n))

/-- `CharIn()` (R58). `none`: no input is available and the read is held (R62). At end of input the answer, or that
there is none, is the free value `Config.charInAtEnd` (D20, log 14). -/
def State.charIn (s : State) : Option (Word × State) :=
  match s.input with
  | item :: rest => some ((s.setInput rest).answerChar (item.code.setWidth 16))
  | [] =>
    if s.inputEnded then (Config.charInAtEnd s.draws).map (fun v => s.countDraw.answerChar v) else none

/-- `IntIn()` (R59): malformed input delivers 0. `none`: held (R62). At end of input the answer, or that there is none,
is the free value `Config.intInAtEnd` (U3, log 14). -/
def State.intIn (s : State) : Option (Word × State) :=
  match s.input with
  | item :: rest => some ((s.setInput rest).answerInt (item.number.getD 0))
  | [] =>
    if s.inputEnded then (Config.intInAtEnd s.draws).map (fun n => s.countDraw.answerInt n) else none

/-- `CharOut(v)` (R60): the low byte of the word. -/
def State.charOut (s : State) (v : Word) : State := s.emit (.outChar (v.extractLsb' 0 8))

/-- `IntOut(v)` (R61): the word as a signed 16-bit integer. -/
def State.intOut (s : State) (v : Word) : State := s.emit (.outInt v.toInt)

/-! ### The router (R55, R56) -/

/-- `MemRead(addr, 1)`, the cases in the order R55 tests them. `none`: an input port has nothing to deliver and the read
is held (R62). -/
def State.memRead (s : State) (addr : Word) : Option (Word × State) :=
  if addr = ioCharIn then s.charIn
  else if addr = ioIntIn then s.intIn
  else if addr.toNat < memWords then some (s.cell addr.toNat, s.markAccessed addr.toNat)
  else some (0, s)

/-- `MemWrite(addr, 1, v)`, the cases in the order R56 tests them. -/
def State.memWrite (s : State) (addr v : Word) : State :=
  if addr = ioCharOut then s.charOut v
  else if addr = ioIntOut then s.intOut v
  else if addr.toNat < memWords then (s.markAccessed addr.toNat).setCell addr.toNat v
  else s

/-- Whether a router read of `addr` is held for want of input (R62). -/
def State.readHeld (s : State) (addr : Word) : Bool := (s.memRead addr).isNone

/-! ### The guarded stack accesses (R63, R64) -/

/-- `accessed` after a stack access of cell `a`: marked only if `STACK_MARKS_ACCESSED` (D6, log 4). -/
def State.markStack (s : State) (a : Nat) : State := if stackMarksAccessed then s.markAccessed a else s

/-- `StackWrite(addr, v)` (R63): memory only, dropped outside it. -/
def State.stackWrite (s : State) (addr v : Word) : State :=
  if addr.toNat < memWords then (s.markStack addr.toNat).setCell addr.toNat v else s

/-- The word `StackRead(addr)` gives (R64): 0 outside memory. -/
def State.stackValue (s : State) (addr : Word) : Word :=
  if addr.toNat < memWords then s.cell addr.toNat else 0

/-- What `StackRead(addr)` does to the state (R64): nothing, but for the mark of D6. -/
def State.stackTouch (s : State) (addr : Word) : State :=
  if addr.toNat < memWords then s.markStack addr.toNat else s

/-! ### The parts of the cycle (R110 to R117) -/

/-- `Fetch(A)` with A the program counter (R57): a plain read of the array. -/
def State.fetchWord (s : State) : Word := s.cell s.pc.toNat

/-- The fetch step: register 15 and `next_pc` both become A + 1 (R112). -/
def State.advance (s : State) : State :=
  let next := BitVec.ofNat 16 (s.pc.toNat + 1)
  (s.setReg pcReg next).stagePc next

/-- The commit step: register 15 <- `next_pc` (R116). -/
def State.commit (s : State) : State := s.setReg pcReg s.nextPc

/-- The addresses of the stack part of a dump: from the top of memory down to SP, none if SP has its reset value, the
literal condition of R197. -/
def stackDumpAddresses (sp : Word) : List Nat :=
  if sp = spReset then [] else (List.range' sp.toNat (memWords - sp.toNat)).reverse

/-- A state dump (R196, R197, R198). -/
def State.dumpOf (s : State) : Dump where
  regs     := s.regs
  z        := s.z
  c        := s.c
  stack    := (stackDumpAddresses s.sp).map (fun a => (a, s.cell a))
  accessed := s.accessed.map (fun a => (a, s.cell a))

/-- Whether the debug hook dumps after the instruction fetched from `a`: a breakpoint address, or the machine just
became HALTED (R117, R194). -/
def State.dumpsAfter (s : State) (a : Nat) : Bool :=
  decide (a ∈ s.breakpoints) || decide (s.status = .halted)

/-- The debug hook (R117): at most one dump, and nothing else changes (R194, R200). -/
def State.debugHook (s : State) (a : Nat) : State :=
  if s.dumpsAfter a then s.emit (.dump s.dumpOf) else s

/-! ### The one exception: program-counter overrun (R181) -/

/-- The state an overrun leaves (R181, R182): status ABORTED, the message emitted, nothing else changed. -/
def State.abortAt (s : State) : State := (s.setStatus .aborted).emit (.abort s.pc)

/-- Taking the exception `PcOutOfBounds(A)` (R181): the run ends. There is no handler and no return from it (R180, R187,
R188), so the step answers a fault, which names the address and carries the final state (D11, log 10). -/
def State.overrun (s : State) : Fault := .pcOutOfBounds s.pc s.abortAt

end Sys2Proof.Machine
end

