-- ==== Sys2Proof/Machine/Flags.lean ====
section
/-! DEFINITION. Results and flags of the nine instructions that write Z and C (R30, R31), and the four conditions that
read them (R136). Sums and differences are exact and narrowed at the end (R154). -/

namespace Sys2Proof.Machine

/-- Z of a result (R154): 1 exactly when the 16-bit result is 0. -/
def zeroFlag (r : Word) : Bool := decide (r = 0)

/-- The result of ADD and ADDI (R150, R151). -/
def addResult (a b : Word) : Word := BitVec.ofNat 16 (a.toNat + b.toNat)

/-- C of ADD and ADDI: carry out of bit 15 (R150, R151). -/
def addCarry (a b : Word) : Bool := decide (a.toNat + b.toNat > 0xFFFF)

/-- The result of SUB and SUBI (R152, R153). -/
def subResult (a b : Word) : Word := BitVec.ofInt 16 ((a.toNat : Int) - (b.toNat : Int))

/-- C of SUB and SUBI: the unsigned borrow (R152, R153, R154). -/
def subBorrow (a b : Word) : Bool := decide (a.toNat < b.toNat)

/-- The result of SHR: a logical shift right (R162, R165, D7, log 6). -/
def shrResult (a : Word) (k : BitVec 4) : Word := BitVec.ofNat 16 (a.toNat / 2 ^ k.toNat)

/-- C of SHR: the last bit shifted out, 0 for a count of 0 (R162). -/
def shrCarry (a : Word) (k : BitVec 4) : Bool :=
  if k.toNat = 0 then false else a.getLsbD (k.toNat - 1)

/-- The result of SHL (R163). -/
def shlResult (a : Word) (k : BitVec 4) : Word := BitVec.ofNat 16 (a.toNat * 2 ^ k.toNat)

/-- C of SHL: any 1 was shifted out of bit 15 (R163, R165). -/
def shlCarry (a : Word) (k : BitVec 4) : Bool := decide (a.toNat * 2 ^ k.toNat > 0xFFFF)

/-- Z of CMP (R164). -/
def cmpZero (a b : Word) : Bool := decide (a.toNat = b.toNat)

/-- C of CMP: less than, unsigned (R164, D8, log 7). -/
def cmpLess (a b : Word) : Bool := decide (a.toNat < b.toNat)

/-- Write a result to `rd` and the flags that go with it: Z from the result, C as given (R31). -/
def State.writeResult (s : State) (rd : Reg) (r : Word) (c : Bool) : State :=
  (s.setReg rd r).setFlags (zeroFlag r) c

/-- EQ: Z = 1 (R131). -/
def condEq (z _c : Bool) : Bool := z

/-- NE: Z = 0 (R132). -/
def condNe (z _c : Bool) : Bool := !z

/-- LT: Z = 0 and C = 1 (R133). -/
def condLt (z c : Bool) : Bool := !z && c

/-- GE: Z = 1 or C = 0 (R134). -/
def condGe (z c : Bool) : Bool := z || !c

end Sys2Proof.Machine
end

