-- ==== Sys2Proof/Machine/Operands.lean ====
section
/-! DEFINITION. The operand forms: effective addresses (R143), branch targets (R135), immediates (R83, R85). -/

namespace Sys2Proof.Machine

/-- `zext_16` of a 4-bit immediate (R83, R84). -/
def zextImm4 (imm : BitVec 4) : Word := imm.setWidth 16

/-- The value MOV writes, under either reading of its immediate (R142, C2). -/
def movValue (signExtend : Bool) (imm8 : BitVec 8) : Word :=
  if signExtend then BitVec.ofInt 16 imm8.toInt else imm8.setWidth 16

/-- `ea = (x[rm] + offset) mod 2^16` (R143), the offset unsigned. -/
def State.effectiveAddress (s : State) (rm : Reg) (offset : BitVec 4) : Word :=
  BitVec.ofNat 16 ((s.reg rm).toNat + offset.toNat)

/-- `target = (base + sext_N(off)) mod 2^16` (R135); the base is register 15 as the handler reads it, A + 1 (D4,
log 5). -/
def branchTarget (base : Word) {n : Nat} (off : BitVec n) : Word :=
  BitVec.ofInt 16 ((base.toNat : Int) + off.toInt)

/-- A jump that is taken stages its target; one that is not leaves `next_pc` as the fetch staged it (R115, R136). -/
def State.jumpIf (s : State) (taken : Bool) {n : Nat} (off : BitVec n) : State :=
  if taken then s.stagePc (branchTarget (s.reg pcReg) off) else s

end Sys2Proof.Machine
end

