-- ==== Sys2Proof/Machine/Arithmetic.lean ====
section
/-! DEFINITION. ADD, ADDI, SUB, SUBI (spec/43_arithmetic.md). Sources are read before the destination is written. -/

namespace Sys2Proof.Machine

/-- ADD (R150). -/
def execAdd (rd rm rn : Reg) (s : State) : Host.Outcome State Fault Refusal :=
  .next (s.writeResult rd (addResult (s.reg rm) (s.reg rn)) (addCarry (s.reg rm) (s.reg rn)))

/-- ADDI (R151). -/
def execAddi (rd rm : Reg) (imm4 : BitVec 4) (s : State) : Host.Outcome State Fault Refusal :=
  .next (s.writeResult rd (addResult (s.reg rm) (zextImm4 imm4)) (addCarry (s.reg rm) (zextImm4 imm4)))

/-- SUB (R152). -/
def execSub (rd rm rn : Reg) (s : State) : Host.Outcome State Fault Refusal :=
  .next (s.writeResult rd (subResult (s.reg rm) (s.reg rn)) (subBorrow (s.reg rm) (s.reg rn)))

/-- SUBI (R153). -/
def execSubi (rd rm : Reg) (imm4 : BitVec 4) (s : State) : Host.Outcome State Fault Refusal :=
  .next (s.writeResult rd (subResult (s.reg rm) (zextImm4 imm4)) (subBorrow (s.reg rm) (zextImm4 imm4)))

end Sys2Proof.Machine
end

