-- ==== Sys2Proof/Machine/Control.lean ====
section
/-! DEFINITION. HALT (R113) and the control transfers (R130 to R136 of spec/41_control_transfer.md). -/

namespace Sys2Proof.Machine

/-- HALT (R113, R119): status HALTED. With `HALT_ADVANCES_PC` register 15 keeps A + 1; without it `next_pc` goes back to
A (D5, log 3). -/
def execHalt (s : State) : Host.Outcome State Fault Refusal :=
  .next (if haltAdvancesPc then s.setStatus .halted
    else (s.setStatus .halted).stagePc (subResult (s.reg pcReg) 1))

/-- JMP (R130). -/
def execJmp (off12 : BitVec 12) (s : State) : Host.Outcome State Fault Refusal :=
  .next (s.jumpIf true off12)

/-- JEQ (R131). -/
def execJeq (off10 : BitVec 10) (s : State) : Host.Outcome State Fault Refusal :=
  .next (s.jumpIf (condEq s.z s.c) off10)

/-- JNE (R132). -/
def execJne (off10 : BitVec 10) (s : State) : Host.Outcome State Fault Refusal :=
  .next (s.jumpIf (condNe s.z s.c) off10)

/-- JLT (R133). -/
def execJlt (off10 : BitVec 10) (s : State) : Host.Outcome State Fault Refusal :=
  .next (s.jumpIf (condLt s.z s.c) off10)

/-- JGE (R134). -/
def execJge (off10 : BitVec 10) (s : State) : Host.Outcome State Fault Refusal :=
  .next (s.jumpIf (condGe s.z s.c) off10)

end Sys2Proof.Machine
end

