-- ==== Sys2Proof/Machine/Logic.lean ====
section
/-! DEFINITION. AND, OR, SHR, SHL, CMP (spec/44_logic_shift_compare.md). Sources are read before the destination is
written. -/

namespace Sys2Proof.Machine

/-- AND (R160): C is cleared. -/
def execAnd (rd rm rn : Reg) (s : State) : Host.Outcome State Fault Refusal :=
  .next (s.writeResult rd (s.reg rm &&& s.reg rn) false)

/-- OR (R161): C is cleared. -/
def execOr (rd rm rn : Reg) (s : State) : Host.Outcome State Fault Refusal :=
  .next (s.writeResult rd (s.reg rm ||| s.reg rn) false)

/-- SHR (R162). -/
def execShr (rd rm : Reg) (imm4 : BitVec 4) (s : State) : Host.Outcome State Fault Refusal :=
  .next (s.writeResult rd (shrResult (s.reg rm) imm4) (shrCarry (s.reg rm) imm4))

/-- SHL (R163). -/
def execShl (rd rm : Reg) (imm4 : BitVec 4) (s : State) : Host.Outcome State Fault Refusal :=
  .next (s.writeResult rd (shlResult (s.reg rm) imm4) (shlCarry (s.reg rm) imm4))

/-- CMP (R164): only the flags change. The ignored bits are not looked at (R94). -/
def execCmp (_ign : BitVec 4) (rm rn : Reg) (s : State) : Host.Outcome State Fault Refusal :=
  .next (s.setFlags (cmpZero (s.reg rm) (s.reg rn)) (cmpLess (s.reg rm) (s.reg rn)))

end Sys2Proof.Machine
end

