-- ==== Sys2Proof/Machine/MemoryMove.lean ====
section
/-! DEFINITION. LDR, STR and MOV (spec/42_memory_move.md). -/

namespace Sys2Proof.Machine

/-- LDR (R140): the base is read before the destination is written. A read that is held for want of input changes
nothing (R37, R62); the cycle then does not complete (`cycle` in Machine/Cycle.lean, log 12). -/
def execLdr (rd rm : Reg) (imm4 : BitVec 4) (s : State) : Host.Outcome State Fault Refusal :=
  match s.memRead (s.effectiveAddress rm imm4) with
  | some (v, t) => .next (t.setReg rd v)
  | none => .next s

/-- STR (R141). -/
def execStr (imm4hi : BitVec 4) (rm rn : Reg) (s : State) : Host.Outcome State Fault Refusal :=
  .next (s.memWrite (s.effectiveAddress rm imm4hi) (s.reg rn))

/-- MOV (R142): no flag is written. -/
def execMov (rd : Reg) (imm8 : BitVec 8) (s : State) : Host.Outcome State Fault Refusal :=
  .next (s.setReg rd (movValue movImm8SignExtend imm8))

end Sys2Proof.Machine
end

