-- ==== Sys2Proof/Machine/Stack.lean ====
section
/-! DEFINITION. PUSH and POP (spec/45_stack.md). The order of their effects is that of R170 and R171 (D9, log 8). -/

namespace Sys2Proof.Machine

/-- SP after the decrement of a push (R170, R172): always, `mod 2^16`. -/
def State.pushedSp (s : State) : Word := subResult s.sp 1

/-- SP after the increment of a pop (R171, R172): always, `mod 2^16`. -/
def State.poppedSp (s : State) : Word := addResult s.sp 1

/-- PUSH (R170): SP is decremented, then the register is read, then the guarded store is made at the new SP. The ignored
bits are not looked at (R94). -/
def execPush (_ign : BitVec 8) (rn : Reg) (s : State) : Host.Outcome State Fault Refusal :=
  let t := s.setReg spReg s.pushedSp
  .next (t.stackWrite t.sp (t.reg rn))

/-- POP (R171): the guarded read at SP, the increment, then the destination; destination 15 stages `next_pc` and leaves
register 15 alone. The ignored bits are not looked at (R94). -/
def execPop (rd : Reg) (_ign : BitVec 8) (s : State) : Host.Outcome State Fault Refusal :=
  let v := s.stackValue s.sp
  let t := (s.stackTouch s.sp).setReg spReg s.poppedSp
  .next (if rd = pcReg then t.stagePc v else t.setReg rd v)

end Sys2Proof.Machine
end

