-- ==== Sys2Proof/Machine/Dispatch.lean ====
section
/-! DEFINITION. `Execute(w)` of R119: one arm per instruction, each a direct call of its meaning. -/

namespace Sys2Proof.Machine

def exec (i : Instr) (s : State) : Host.Outcome State Fault Refusal :=
  match i with
  | .halt => Sys2Proof.Machine.execHalt s
  | .jmp off12 => Sys2Proof.Machine.execJmp off12 s
  | .jeq off10 => Sys2Proof.Machine.execJeq off10 s
  | .jne off10 => Sys2Proof.Machine.execJne off10 s
  | .jlt off10 => Sys2Proof.Machine.execJlt off10 s
  | .jge off10 => Sys2Proof.Machine.execJge off10 s
  | .ldr rd rm imm4 => Sys2Proof.Machine.execLdr rd rm imm4 s
  | .str imm4hi rm rn => Sys2Proof.Machine.execStr imm4hi rm rn s
  | .mov rd imm8 => Sys2Proof.Machine.execMov rd imm8 s
  | .add rd rm rn => Sys2Proof.Machine.execAdd rd rm rn s
  | .addi rd rm imm4 => Sys2Proof.Machine.execAddi rd rm imm4 s
  | .sub rd rm rn => Sys2Proof.Machine.execSub rd rm rn s
  | .subi rd rm imm4 => Sys2Proof.Machine.execSubi rd rm imm4 s
  | .and rd rm rn => Sys2Proof.Machine.execAnd rd rm rn s
  | .or rd rm rn => Sys2Proof.Machine.execOr rd rm rn s
  | .shr rd rm imm4 => Sys2Proof.Machine.execShr rd rm imm4 s
  | .shl rd rm imm4 => Sys2Proof.Machine.execShl rd rm imm4 s
  | .cmp ign rm rn => Sys2Proof.Machine.execCmp ign rm rn s
  | .push ign rn => Sys2Proof.Machine.execPush ign rn s
  | .pop rd ign => Sys2Proof.Machine.execPop rd ign s

end Sys2Proof.Machine
end

