-- ==== Sys2Proof/Machine/Cycle.lean ====
section
/-! DEFINITION. The instruction cycle (R110 to R119 of spec/40_cycle_halt.md), around `exec`. -/

namespace Sys2Proof.Machine

/-- Whether the instruction is held at this state, which is the state after the fetch: it reads an input port that has
nothing to deliver (R62). Only LDR reaches the ports to read (R68). -/
def heldAt (i : Instr) (s : State) : Bool :=
  match i with
  | .ldr _ rm imm4 => s.readHeld (s.effectiveAddress rm imm4)
  | .halt | .jmp _ | .jeq _ | .jne _ | .jlt _ | .jge _ | .str _ _ _ | .mov _ _
  | .add _ _ _ | .addi _ _ _ | .sub _ _ _ | .subi _ _ _ | .and _ _ _ | .or _ _ _
  | .shr _ _ _ | .shl _ _ _ | .cmp _ _ _ | .push _ _ | .pop _ _ => false

/-- What follows the handler: the commit (R116), then the debug hook for the address `a` the instruction was fetched
from (R117). -/
def finish (a : Nat) (o : Host.Outcome State Fault Refusal) : Host.Outcome State Fault Refusal :=
  match o with
  | .next t => .next (t.commit.debugHook a)
  | .fault f => .fault f
  | .refused r => .refused r

/-- One cycle of a RUNNING machine (R119): the bounds check (R111), the fetch (R112), decoding with the sentinel first
(R113), the handler (R114), the commit and the debug hook. A held input read is no step (R62): the state stays as it
was, before the fetch (log 12). -/
def runCycle (s : State) : Host.Outcome State Fault Refusal :=
  if s.pc.toNat < memWords then
    let i := decode s.fetchWord
    if heldAt i s.advance then .next s else finish s.pc.toNat (exec i s.advance)
  else .fault s.overrun

/-- One step. A HALTED machine performs no further step and changes nothing (R34): the answer is the same state, the
final one (log 11). An ABORTED machine is never a final state (D11): the answer is its fault again (log 10). -/
def cycle (s : State) : Host.Outcome State Fault Refusal :=
  match s.status with
  | .running => runCycle s
  | .halted => .next s
  | .aborted => .fault (.pcOutOfBounds s.pc s)

/-- The word a table row's `nbits` bits make, the bits above them 0. -/
def tableWord (nbits w : Nat) : Word := BitVec.ofNat 16 (w % 2 ^ nbits)

end Sys2Proof.Machine
end

