-- ==== Sys2Proof/Machine/Step.lean ====
section
/-! DEFINITION. The step, and the placing of one instruction where the next step fetches it. -/

namespace Sys2Proof.Machine

/-- One step of the machine: one instruction cycle (R7, R119). -/
def step (s : State) : Host.Outcome State Fault Refusal := cycle s

/-- The state with a table row's word stored in the memory cell the next step fetches, the cell at the program counter
(R57). It stands for the external loader (R212, log 17) and touches nothing else. -/
def State.withFetchWord (s : State) (nbits w : Nat) : State := s.setCell s.pc.toNat (tableWord nbits w)

end Sys2Proof.Machine
end

