-- ==== Sys2Proof/Machine/Loader.lean ====
section
/-! DEFINITION. What the environment does: the load before the first cycle (R211, R212, R193), the number stream it is
read from (R214), and the arrival of input (R37, R62). None of it is a step of the core. -/

namespace Sys2Proof.Machine

/-- Write one pair of an image straight into the array (R212): an address outside memory is ignored, a value is reduced
`mod 2^16` (D15), `accessed` is not marked. -/
def State.loadPair (s : State) (p : Nat × Nat) : State :=
  if p.1 < memWords then s.setCell p.1 (BitVec.ofNat 16 p.2) else s

/-- Load an image, pair after pair (R212). -/
def State.load (s : State) (image : List (Nat × Nat)) : State := image.foldl State.loadPair s

/-- The breakpoint set made of the addresses supplied; those outside memory are ignored (R193). -/
def breakpointSet (addresses : List Nat) : AddrSet :=
  (addresses.filter (fun a => a < memWords)).foldl AddrSet.add []

/-- Supply the breakpoint set (R193). -/
def State.setBreakpoints (s : State) (addresses : List Nat) : State :=
  { s with breakpoints := breakpointSet addresses }

/-- The state at the first cycle of a run: reset, then the load and the breakpoint set (R211). -/
def State.boot (image : List (Nat × Nat)) (addresses : List Nat) : State :=
  (State.reset.load image).setBreakpoints addresses

/-- The address/value pairs of a number stream up to the pair `0 0` that ends it; `none` if the stream stops before it,
which R214 does not describe (N10). -/
def parsePairs : List Nat → Option (List (Nat × Nat))
  | 0 :: 0 :: _ => some []
  | a :: v :: rest => (parsePairs rest).map (fun ps => (a, v) :: ps)
  | _ => none

/-- The number stream of R214: a count, that many breakpoint addresses, then the pairs. The text of a number is outside
the core (N10). -/
def parseLoad : List Nat → Option (List Nat × List (Nat × Nat))
  | [] => none
  | n :: rest =>
    if n ≤ rest.length then (parsePairs (rest.drop n)).map (fun ps => (rest.take n, ps)) else none

/-- More items of the input stream arrive (R62). -/
def State.supplyInput (s : State) (items : List InputItem) : State := { s with input := s.input ++ items }

/-- The input stream ends: nothing arrives after what is there (R62, U2, U3). -/
def State.endInput (s : State) : State := { s with inputEnded := true }

end Sys2Proof.Machine
end

