-- ==== Sys2Proof/Machine/Render.lean ====
section
/-! DEFINITION. The reference rendering of the diagnostic events as lines of text (R58 to R61, R183, R196; R3(d) lets a
model keep the events only). What the templates leave open, blank and header lines between the parts of a dump among it,
is a free value of Config.lean (N9, N12, log 15). -/

namespace Sys2Proof.Machine

/-- One hexadecimal digit; the case of A to F is not stated (N9). -/
def hexDigit (n : Nat) : String :=
  match n with
  | 0 => "0" | 1 => "1" | 2 => "2" | 3 => "3" | 4 => "4" | 5 => "5" | 6 => "6" | 7 => "7" | 8 => "8" | 9 => "9"
  | 10 => if Config.hexCapitals then "A" else "a"
  | 11 => if Config.hexCapitals then "B" else "b"
  | 12 => if Config.hexCapitals then "C" else "c"
  | 13 => if Config.hexCapitals then "D" else "d"
  | 14 => if Config.hexCapitals then "E" else "e"
  | _ => if Config.hexCapitals then "F" else "f"

/-- A word as `0x` and four hexadecimal digits (R183, R196). -/
def hexWord (w : Word) : String :=
  "0x" ++ hexDigit (w.toNat / 4096) ++ hexDigit (w.toNat / 256 % 16) ++ hexDigit (w.toNat / 16 % 16)
    ++ hexDigit (w.toNat % 16)

/-- A flag as `0` or `1` (R196). -/
def flagText (b : Bool) : String := if b then "1" else "0"

/-- An integer in decimal, with a leading minus sign if it is negative (R61, D13). -/
def decimal (n : Int) : String := toString n

/-- The character a byte prints as: the source gives 0x41 alone (R60). -/
def glyph (b : Byte) : String := if b = 0x41 then "A" else Config.otherGlyph b

/-- One line for an accessed cell (R196). -/
def accessedLine (p : MemCell) : String := "[" ++ hexWord (BitVec.ofNat 16 p.1) ++ "] = " ++ hexWord p.2

/-- One part of a dump, after the blank or header lines before it. Whether there are any is not stated (N9): they are the
free value `Config.dumpHeading`, DESIGN CHOICE, log 15. -/
def dumpPart (part : Nat) (body : List String) : List String := Config.dumpHeading part body.isEmpty ++ body

/-- The lines of a state dump, in order (R196). -/
def Dump.lines (d : Dump) : List String :=
  dumpPart 0 ((List.finRange 16).map (fun i => "R" ++ Config.indexText i.val ++ " = " ++ hexWord d.regs[i]))
    ++ dumpPart 1 ["Z = " ++ flagText d.z, "C = " ++ flagText d.c]
    ++ dumpPart 2 (d.stack.map (fun p => Config.stackLine p.1 p.2))
    ++ dumpPart 3 (d.accessed.map accessedLine)

/-- The lines of one event. -/
def Event.lines : Event → List String
  | .inChar v => ["IN => " ++ decimal v.toNat]
  | .inInt n => ["IN => " ++ decimal n]
  | .outChar b => ["OUT <= " ++ glyph b]
  | .outInt n => ["OUT <= " ++ decimal n]
  | .dump d => d.lines
  | .abort pc => ["Program counter out of bounds: " ++ hexWord pc ++ "!"]

/-- The diagnostic text of a run so far, line by line and in order (R6(5), R69). -/
def State.diagnosticText (s : State) : List String := s.diag.flatMap Event.lines

end Sys2Proof.Machine
end

