-- ==== Sys2Proof/Safety.lean ====
section
/-! DEFINITION. The terms in which claims speak of a run: the invariant of the machine between two cycles, the part of
the state a program can tell apart, and the events of a step. -/

namespace Sys2Proof

/-- `w[lo+n-1:lo]`, the notation of spec/00_scope.md section 5, by division and remainder. -/
def fieldOf (w : Word) (lo n : Nat) : BitVec n := BitVec.ofNat n (w.toNat / 2 ^ lo)

/-- `w[lo+3:lo]` as a register number, by division and remainder. -/
def regField (w : Word) (lo : Nat) : Reg := ⟨w.toNat / 2 ^ lo % 16, Nat.mod_lt _ (by decide)⟩

/-- The opcode number of each instruction in the opcode map (R92); HALT's word ends in the nibble 15 too. -/
def Instr.opcodeNumber : Instr → Nat
  | .jmp _ => 0
  | .jeq _ | .jne _ | .jlt _ | .jge _ => 1
  | .ldr _ _ _ => 2
  | .str _ _ _ => 3
  | .mov _ _ => 4
  | .add _ _ _ => 5
  | .addi _ _ _ => 6
  | .sub _ _ _ => 7
  | .subi _ _ _ => 8
  | .and _ _ _ => 9
  | .or _ _ _ => 10
  | .shr _ _ _ => 11
  | .shl _ _ _ => 12
  | .cmp _ _ _ => 13
  | .push _ _ => 14
  | .pop _ _ | .halt => 15

end Sys2Proof

namespace Sys2Proof.Machine

/-- What holds between two cycles: memory and the two address sets are in canonical form, and `next_pc` is what the last
commit copied to register 15 (R26, R116; both are 0 after reset, R39). -/
abbrev State.Inv (s : State) : Prop :=
  s.mem.wf ∧ s.accessed.wf ∧ s.breakpoints.wf ∧ s.nextPc = s.pc

/-- The state without what only the debug hook shows: the breakpoint set, `accessed` and the diagnostic stream (R200,
D19). -/
def State.withoutDebug (s : State) : State := { s with breakpoints := [], accessed := [], diag := [] }

/-- A fault without what only the debug hook shows. -/
def Fault.withoutDebug : Fault → Fault
  | .pcOutOfBounds pc final => .pcOutOfBounds pc final.withoutDebug

/-- An outcome without what only the debug hook shows. -/
def outcomeWithoutDebug : Host.Outcome State Fault Refusal → Host.Outcome State Fault Refusal
  | .next t => .next t.withoutDebug
  | .fault f => .fault f.withoutDebug
  | .refused r => .refused r

/-- Whether an event is a state dump. -/
def Event.isDump : Event → Bool
  | .dump _ => true
  | .inChar _ | .inInt _ | .outChar _ | .outInt _ | .abort _ => false

/-- The machine is ready to run the instruction at its program counter: RUNNING, the counter inside memory (R111), and
no input read to wait for (R62). -/
abbrev State.ready (s : State) : Prop :=
  s.status = .running ∧ s.pc.toNat < memWords ∧ heldAt (decode s.fetchWord) s.advance = false

end Sys2Proof.Machine
end

