-- ==== Sys2Proof/Certificates/Slice0/Obligations.lean ====
section
/-! DEFINITION. The statements for the provers. Each docstring names the rules of spec/ it formalises; a clause that is
the model's choice names its log entry. -/

open Sys2Proof Sys2Proof.Machine

/-! ### Encoding -/

/-- Decoding an encoded well-formed instruction gives it back, at every value of every field (R81 to R92). -/
def Obligations.DecodeEncodeRoundTrip : Prop :=
  ∀ i : Instr, i.wellFormed = true → decode (encode i) = i

/-- Every word decodes to a well-formed instruction whose word it is: no bit is dropped, no two words share an
instruction (R93, with the ignored bits of R94 kept, log 19). -/
def Obligations.EncodeDecodeRoundTrip : Prop :=
  ∀ w : Word, (decode w).wellFormed = true ∧ encode (decode w) = w

/-- The opcode map with every field at its bits (R81 to R88, R90, R92), the fields taken by division. The field order is
decision D2 (log 1). -/
def Obligations.DecodeReadsEveryField : Prop :=
  ∀ w : Word, w ≠ 0xFFFF →
    (w.toNat % 16 = 0 → decode w = .jmp (fieldOf w 4 12)) ∧
    (w.toNat % 16 = 1 → w.toNat / 16384 = 0 → decode w = .jeq (fieldOf w 4 10)) ∧
    (w.toNat % 16 = 1 → w.toNat / 16384 = 1 → decode w = .jne (fieldOf w 4 10)) ∧
    (w.toNat % 16 = 1 → w.toNat / 16384 = 2 → decode w = .jlt (fieldOf w 4 10)) ∧
    (w.toNat % 16 = 1 → w.toNat / 16384 = 3 → decode w = .jge (fieldOf w 4 10)) ∧
    (w.toNat % 16 = 2 → decode w = .ldr (regField w 12) (regField w 8) (fieldOf w 4 4)) ∧
    (w.toNat % 16 = 3 → decode w = .str (fieldOf w 12 4) (regField w 8) (regField w 4)) ∧
    (w.toNat % 16 = 4 → decode w = .mov (regField w 12) (fieldOf w 4 8)) ∧
    (w.toNat % 16 = 5 → decode w = .add (regField w 12) (regField w 8) (regField w 4)) ∧
    (w.toNat % 16 = 6 → decode w = .addi (regField w 12) (regField w 8) (fieldOf w 4 4)) ∧
    (w.toNat % 16 = 7 → decode w = .sub (regField w 12) (regField w 8) (regField w 4)) ∧
    (w.toNat % 16 = 8 → decode w = .subi (regField w 12) (regField w 8) (fieldOf w 4 4)) ∧
    (w.toNat % 16 = 9 → decode w = .and (regField w 12) (regField w 8) (regField w 4)) ∧
    (w.toNat % 16 = 10 → decode w = .or (regField w 12) (regField w 8) (regField w 4)) ∧
    (w.toNat % 16 = 11 → decode w = .shr (regField w 12) (regField w 8) (fieldOf w 4 4)) ∧
    (w.toNat % 16 = 12 → decode w = .shl (regField w 12) (regField w 8) (fieldOf w 4 4)) ∧
    (w.toNat % 16 = 13 → decode w = .cmp (fieldOf w 12 4) (regField w 8) (regField w 4)) ∧
    (w.toNat % 16 = 14 → decode w = .push (fieldOf w 8 8) (regField w 4)) ∧
    (w.toNat % 16 = 15 → decode w = .pop (regField w 12) (fieldOf w 4 8))

/-- R93, R114, R120: every one of the 65536 words has a meaning. 0xFFFF is HALT, each other word is the instruction its
low nibble selects, and no word is refused or stops the machine when it is executed. That `exec` answers the same state
for an LDR held at an empty input port, which the spec says does not complete, is the model's choice (log 12). -/
def Obligations.EveryWordHasAMeaning : Prop :=
  decode 0xFFFF = .halt ∧
  ∀ w : Word, (w ≠ 0xFFFF → decode w ≠ .halt ∧ (decode w).opcodeNumber = w.toNat % 16) ∧
    ∀ s : State, ∃ t, exec (decode w) s = .next t

/-- R94 (decision D16): words that differ only in the bits CMP, PUSH or POP ignores behave alike. -/
def Obligations.IgnoredBitsChangeNothing : Prop :=
  ∀ (v w : Word) (s : State), v ≠ 0xFFFF → w ≠ 0xFFFF →
    (v.toNat % 4096 = w.toNat % 4096 ∧ w.toNat % 16 = 13) ∨
    (v.toNat % 256 = w.toNat % 256 ∧ w.toNat % 16 = 14) ∨
    (v.toNat % 16 = 15 ∧ w.toNat % 16 = 15 ∧ v.toNat / 4096 = w.toNat / 4096) →
    exec (decode v) s = exec (decode w) s

/-- A few words written out from the encodings of R90 and section 2.1 of spec/95_test_vectors.md. -/
def Obligations.SampleWordsDecode : Prop :=
  decode 0xFFFF = .halt ∧ decode 0xFFF0 = .jmp 0xFFF ∧ decode 0x7FD1 = .jne 0x3FD ∧ decode 0xC021 = .jge 2 ∧
  decode 0x3122 = .ldr 3 1 2 ∧ decode 0x1633 = .str 1 6 3 ∧ decode 0x2804 = .mov 2 0x80 ∧
  decode 0x2F26 = .addi 2 15 2 ∧ decode 0x314B = .shr 3 1 4 ∧ decode 0xF12D = .cmp 15 1 2 ∧
  decode 0x005E = .push 0 5 ∧ decode 0xFFEF = .pop 15 0xFE

/-- R89: the offset of a jump is sign-extended as a two's-complement integer of its declared width, and so is MOV's
immediate where it is read as signed (the reading that is not the default, log 2). -/
def Obligations.OffsetsAreSignExtended : Prop :=
  (∀ (b : Word) (o : BitVec 10), branchTarget b o =
    BitVec.ofInt 16 (b.toNat + (if o.toNat < 512 then (o.toNat : Int) else (o.toNat : Int) - 1024))) ∧
  (∀ (b : Word) (o : BitVec 12), branchTarget b o =
    BitVec.ofInt 16 (b.toNat + (if o.toNat < 2048 then (o.toNat : Int) else (o.toNat : Int) - 4096))) ∧
  (∀ o : BitVec 8, movValue true o =
    BitVec.ofInt 16 (if o.toNat < 128 then (o.toNat : Int) else (o.toNat : Int) - 256))

/-! ### The cycle -/

/-- When the word at the program counter decodes to `i` and no input read is waiting, the step is `exec` of `i` after
the fetch has advanced register 15 and `next_pc`, then the commit, then the debug hook (R119). -/
def Obligations.StepRunsDecodedInstruction : Prop :=
  ∀ (s t : State) (i : Instr), s.status = .running → s.pc.toNat < 8192 → decode (s.cell s.pc.toNat) = i →
    heldAt i s.advance = false → exec i s.advance = .next t →
    step s = .next (t.commit.debugHook s.pc.toNat)

/-- R112: the fetch reads the word at A from the array, marks nothing, and sets register 15 and `next_pc` to A + 1, which
does not wrap. -/
def Obligations.FetchStagesNextAddress : Prop :=
  ∀ s : State, s.pc.toNat < 8192 →
    s.fetchWord = s.cell s.pc.toNat ∧
    (s.advance.reg 15).toNat = s.pc.toNat + 1 ∧ s.advance.nextPc.toNat = s.pc.toNat + 1 ∧
    (∀ r : Reg, r ≠ 15 → s.advance.reg r = s.reg r) ∧
    s.advance = { s with regs := s.advance.regs, nextPc := s.advance.nextPc }

/-- R116: the commit copies `next_pc` to register 15 after the handler, once, whatever the word was, and what a handler
stored in register 15 is lost. -/
def Obligations.CommitCopiesNextPc : Prop :=
  ∀ s t : State, s.ready → exec (decode s.fetchWord) s.advance = .next t →
    ∃ u, step s = .next u ∧ u.reg 15 = t.nextPc ∧ ∀ r : Reg, r ≠ 15 → u.reg r = t.reg r

/-- R111: a cycle that starts with register 15 at or beyond 8192 ends the run and does nothing else. The fault and the
final state it carries are log 10. -/
def Obligations.OverrunEndsTheRun : Prop :=
  ∀ s : State, s.status = .running → 8192 ≤ (s.reg 15).toNat →
    step s = .fault (.pcOutOfBounds (s.reg 15)
      { s with status := .aborted, diag := s.diag ++ [.abort (s.reg 15)] })

/-- R121: a run ends normally exactly when the word fetched is 0xFFFF, abnormally exactly when the program counter is at
or beyond 8192 at the start of a cycle, and in no other way: no next state is ABORTED and no step is refused. That the
abnormal end is a fault is D11 (log 10). -/
def Obligations.RunEndsExactlySo : Prop :=
  ∀ s : State, s.status = .running →
    ((∃ t, step s = .next t ∧ t.status = .halted) ↔ (s.reg 15).toNat < 8192 ∧ s.cell (s.reg 15).toNat = 0xFFFF) ∧
    ((∃ f, step s = .fault f) ↔ 8192 ≤ (s.reg 15).toNat) ∧
    (∀ pc t, step s = .fault (.pcOutOfBounds pc t) → t.status = .aborted) ∧
    (∀ t, step s = .next t → t.status ≠ .aborted) ∧
    (∀ r, step s ≠ .refused r)

/-- R34: a HALTED machine changes nothing and goes on to nothing; an ABORTED one answers its fault. That the answers are
these is the model's choice (logs 10 and 11). -/
def Obligations.EndedMachineStaysEnded : Prop :=
  ∀ s : State, (s.status = .halted → step s = .next s) ∧
    (s.status = .aborted → step s = .fault (.pcOutOfBounds (s.reg 15) s))

/-- R37, R62: a read of an input port with nothing available does not complete and changes nothing. That the step then
answers the same state is log 12. -/
def Obligations.InputReadWaits : Prop :=
  ∀ (s : State) (rd rm : Reg) (k : BitVec 4), s.status = .running → s.pc.toNat < 8192 →
    decode (s.cell s.pc.toNat) = .ldr rd rm k →
    ((s.advance.reg rm).toNat + k.toNat) % 65536 = 0xF000 ∨ ((s.advance.reg rm).toNat + k.toNat) % 65536 = 0xF002 →
    s.input = [] → s.inputEnded = false → step s = .next s

/-- R62: the arrival of input lets the waiting read complete: the item is consumed and execution goes on at A + 1. -/
def Obligations.InputArrivalCompletesRead : Prop :=
  ∀ (s : State) (rd rm : Reg) (k : BitVec 4) (item : InputItem) (rest : List InputItem),
    s.status = .running → s.pc.toNat < 8192 → decode (s.cell s.pc.toNat) = .ldr rd rm k →
    ((s.advance.reg rm).toNat + k.toNat) % 65536 = 0xF000 ∨ ((s.advance.reg rm).toNat + k.toNat) % 65536 = 0xF002 →
    s.input = [] →
    ∃ t, step (s.supplyInput (item :: rest)) = .next t ∧ t.input = rest ∧ t.pc.toNat = s.pc.toNat + 1 ∧
      (rd ≠ 15 → t.reg rd = if ((s.advance.reg rm).toNat + k.toNat) % 65536 = 0xF000
        then BitVec.ofNat 16 item.code.toNat else BitVec.ofInt 16 (item.number.getD 0))

/-- R194: after the commit of every cycle there is one dump if A is a breakpoint or the machine is HALTED, none
otherwise, and it shows the state after the instruction. A breakpoint does not stop the core: every cycle that is ready
completes, and unless it fetched the sentinel the machine is RUNNING after it. -/
def Obligations.OneDumpPerTrigger : Prop :=
  ∀ s : State, s.ready →
    ∃ t es, step s = .next t ∧ (s.fetchWord ≠ 0xFFFF → t.status = .running) ∧ (∀ e ∈ es, e.isDump = false) ∧
      t.diag = s.diag ++ es ++
        (if (s.reg 15).toNat ∈ s.breakpoints ∨ t.status = .halted then [.dump t.dumpOf] else [])

/-- R196, R197, R198: a dump shows all registers and both flags; its stack part is empty if SP is 0x2000 and otherwise the cells from 0x1FFF down to SP; the
accessed part is every accessed address, in the order of the set, with the cell's current value; printing marks
nothing. -/
def Obligations.DumpShowsStackAndAccessed : Prop :=
  ∀ s : State,
    s.dumpOf.regs = s.regs ∧ s.dumpOf.z = s.z ∧ s.dumpOf.c = s.c ∧
    (s.sp = 0x2000 → s.dumpOf.stack = []) ∧
    (s.sp ≠ 0x2000 → s.dumpOf.stack.length = 8192 - s.sp.toNat ∧
      ∀ k, k < 8192 - s.sp.toNat → s.dumpOf.stack[k]? = some (8191 - k, s.cell (8191 - k))) ∧
    (s.accessed.wf → s.dumpOf.accessed.Pairwise (fun p q => p.1 < q.1)) ∧
    (∀ a v, (a, v) ∈ s.dumpOf.accessed ↔ a ∈ s.accessed ∧ v = s.cell a) ∧
    (∀ a, (s.debugHook a).accessed = s.accessed)

/-! ### Control transfer and HALT -/

/-- HALT completes: status HALTED and nothing else (R113); register 15 stays A + 1 by decision D5 (log 3). -/
def Obligations.HaltSetsStatus : Prop :=
  ∀ s : State, exec .halt s = .next { s with status := .halted }

/-- JMP completes: `next_pc` becomes x[15] + sext_12(off12) mod 2^16 and nothing else changes (R130). -/
def Obligations.JmpStagesTarget : Prop :=
  ∀ (off : BitVec 12) (s : State),
    exec (.jmp off) s = .next { s with nextPc := BitVec.ofInt 16 ((s.reg 15).toNat + off.toInt) }

/-- JEQ, JNE, JLT, JGE complete: the target is staged exactly when the condition holds, and nothing else changes
(R131 to R134, R136). -/
def Obligations.ConditionalJumpsStageTarget : Prop :=
  ∀ (off : BitVec 10) (s : State),
    exec (.jeq off) s = .next (if s.z = true
      then { s with nextPc := BitVec.ofInt 16 ((s.reg 15).toNat + off.toInt) } else s) ∧
    exec (.jne off) s = .next (if s.z = false
      then { s with nextPc := BitVec.ofInt 16 ((s.reg 15).toNat + off.toInt) } else s) ∧
    exec (.jlt off) s = .next (if s.z = false ∧ s.c = true
      then { s with nextPc := BitVec.ofInt 16 ((s.reg 15).toNat + off.toInt) } else s) ∧
    exec (.jge off) s = .next (if s.z = true ∨ s.c = false
      then { s with nextPc := BitVec.ofInt 16 ((s.reg 15).toNat + off.toInt) } else s)

/-- R138: with Z = 1 and C = 0, EQ and GE are taken, NE and LT are not; with Z = 0 and C = 1, LT and NE are taken, EQ
and GE are not. -/
def Obligations.BranchesTakenByFlags : Prop :=
  ∀ (off : BitVec 10) (s : State),
    (s.z = true → s.c = false →
      exec (.jeq off) s = .next { s with nextPc := branchTarget (s.reg 15) off } ∧
      exec (.jge off) s = .next { s with nextPc := branchTarget (s.reg 15) off } ∧
      exec (.jne off) s = .next s ∧ exec (.jlt off) s = .next s) ∧
    (s.z = false → s.c = true →
      exec (.jlt off) s = .next { s with nextPc := branchTarget (s.reg 15) off } ∧
      exec (.jne off) s = .next { s with nextPc := branchTarget (s.reg 15) off } ∧
      exec (.jeq off) s = .next s ∧ exec (.jge off) s = .next s)

/-- R115: JMP, a conditional jump whose condition holds, and POP with destination 15 override `next_pc`; every other
handler leaves the value the fetch staged. HALT is no handler of R115: that it leaves `next_pc` too is decision D5
(log 3). -/
def Obligations.OnlyTakenBranchesOverrideNextPc : Prop :=
  ∀ (i : Instr) (s t : State), exec i s = .next t →
    t.nextPc = match i with
      | .jmp off => branchTarget (s.reg 15) off
      | .jeq off => if s.z = true then branchTarget (s.reg 15) off else s.nextPc
      | .jne off => if s.z = false then branchTarget (s.reg 15) off else s.nextPc
      | .jlt off => if s.z = false ∧ s.c = true then branchTarget (s.reg 15) off else s.nextPc
      | .jge off => if s.z = true ∨ s.c = false then branchTarget (s.reg 15) off else s.nextPc
      | .pop rd _ => if rd = 15 then (if (s.reg 14).toNat < 8192 then s.cell (s.reg 14).toNat else 0) else s.nextPc
      | .halt | .ldr _ _ _ | .str _ _ _ | .mov _ _ | .add _ _ _ | .addi _ _ _ | .sub _ _ _ | .subi _ _ _
      | .and _ _ _ | .or _ _ _ | .shr _ _ _ | .shl _ _ _ | .cmp _ _ _ | .push _ _ => s.nextPc

/-- R29: where register 15 is after a completed cycle, for every instruction. -/
def Obligations.ProgramCounterAfterStep : Prop :=
  ∀ s t : State, s.ready → step s = .next t →
    t.reg 15 = match decode s.fetchWord with
      | .jmp off => BitVec.ofInt 16 (s.pc.toNat + 1 + off.toInt)
      | .jeq off => if s.z = true then BitVec.ofInt 16 (s.pc.toNat + 1 + off.toInt) else s.pc + 1
      | .jne off => if s.z = false then BitVec.ofInt 16 (s.pc.toNat + 1 + off.toInt) else s.pc + 1
      | .jlt off => if s.z = false ∧ s.c = true then BitVec.ofInt 16 (s.pc.toNat + 1 + off.toInt) else s.pc + 1
      | .jge off => if s.z = true ∨ s.c = false then BitVec.ofInt 16 (s.pc.toNat + 1 + off.toInt) else s.pc + 1
      | .pop rd _ => if rd = 15 then (if s.sp.toNat < 8192 then s.cell s.sp.toNat else 0) else s.pc + 1
      | .halt | .ldr _ _ _ | .str _ _ _ | .mov _ _ | .add _ _ _ | .addi _ _ _ | .sub _ _ _ | .subi _ _ _
      | .and _ _ _ | .or _ _ _ | .shr _ _ _ | .shl _ _ _ | .cmp _ _ _ | .push _ _ => s.pc + 1

/-- R28 (decision D10, log 9): an instruction other than POP whose destination is register 15 does not change the program
counter's course, nor any other register. -/
def Obligations.WriteToRegister15IsLost : Prop :=
  ∀ (s t : State) (rm rn : Reg) (k : BitVec 4) (b : BitVec 8), s.ready → step s = .next t →
    decode s.fetchWord ∈ [.ldr 15 rm k, .mov 15 b, .add 15 rm rn, .addi 15 rm k, .sub 15 rm rn, .subi 15 rm k,
      .and 15 rm rn, .or 15 rm rn, .shr 15 rm k, .shl 15 rm k] →
    t.reg 15 = s.pc + 1 ∧ ∀ r : Reg, r ≠ 15 → t.reg r = s.reg r

/-! ### Loads, stores, moves -/

/-- LDR of an address that is no input port completes: in memory the destination gets the cell and the address is
marked, elsewhere it gets 0 (R140, R143, R55, R67). -/
def Obligations.LdrReadsMemoryOrZero : Prop :=
  ∀ (rd rm : Reg) (k : BitVec 4) (s : State) (ea : Nat), ea = ((s.reg rm).toNat + k.toNat) % 65536 →
    ea ≠ 0xF000 → ea ≠ 0xF002 →
    exec (.ldr rd rm k) s = .next (if ea < 8192
      then { s with accessed := s.accessed.add ea, regs := s.regs.set rd (s.cell ea) }
      else { s with regs := s.regs.set rd 0 })

/-- LDR of 0xF000 with an item available completes: the character's code, zero-extended, with one echo (R58). -/
def Obligations.LdrReadsCharacterPort : Prop :=
  ∀ (rd rm : Reg) (k : BitVec 4) (s : State) (item : InputItem) (rest : List InputItem),
    ((s.reg rm).toNat + k.toNat) % 65536 = 0xF000 → s.input = item :: rest →
    exec (.ldr rd rm k) s = .next { s with
      input := rest, diag := s.diag ++ [.inChar (BitVec.ofNat 16 item.code.toNat)],
      regs := s.regs.set rd (BitVec.ofNat 16 item.code.toNat) }

/-- LDR of 0xF002 with an item available completes: the integer truncated to 16 bits, 0 if malformed, with one echo
(R59). -/
def Obligations.LdrReadsIntegerPort : Prop :=
  ∀ (rd rm : Reg) (k : BitVec 4) (s : State) (item : InputItem) (rest : List InputItem),
    ((s.reg rm).toNat + k.toNat) % 65536 = 0xF002 → s.input = item :: rest →
    exec (.ldr rd rm k) s = .next { s with
      input := rest, diag := s.diag ++ [.inInt (item.number.getD 0)],
      regs := s.regs.set rd (BitVec.ofNat 16 (item.number.getD 0 % 65536).toNat) }

/-- LDR of an input port at end of input: whatever the open values are (D20, U2, U3, log 14), it either returns that
value with an echo, and the next read draws another, or is held and changes nothing. -/
def Obligations.LdrAtEndOfInput : Prop :=
  ∀ (rd rm : Reg) (k : BitVec 4) (s : State), s.input = [] → s.inputEnded = true →
    (((s.reg rm).toNat + k.toNat) % 65536 = 0xF000 →
      exec (.ldr rd rm k) s = match Config.charInAtEnd s.draws with
        | some v => .next { s with draws := s.draws + 1, diag := s.diag ++ [.inChar v], regs := s.regs.set rd v }
        | none => .next s) ∧
    (((s.reg rm).toNat + k.toNat) % 65536 = 0xF002 →
      exec (.ldr rd rm k) s = match Config.intInAtEnd s.draws with
        | some n => .next { s with
            draws := s.draws + 1, diag := s.diag ++ [.inInt n], regs := s.regs.set rd (BitVec.ofInt 16 n) }
        | none => .next s)

/-- The frame of LDR: whatever it reads, only the destination register, `accessed`, the input, the draws and the
diagnostic stream may change (R30, R66, R140). -/
def Obligations.LdrFrame : Prop :=
  ∀ (rd rm : Reg) (k : BitVec 4) (s t : State), exec (.ldr rd rm k) s = .next t →
    (∀ r : Reg, r ≠ rd → t.reg r = s.reg r) ∧ (∀ a, t.cell a = s.cell a) ∧ t.z = s.z ∧ t.c = s.c ∧
    t.nextPc = s.nextPc ∧ t.status = s.status ∧ t.breakpoints = s.breakpoints ∧ t.inputEnded = s.inputEnded

/-- STR completes at every address: an output port emits, a cell of memory is written and marked, everything else is
dropped (R141, R143, R56, R60, R61). -/
def Obligations.StrResult : Prop :=
  ∀ (k : BitVec 4) (rm rn : Reg) (s : State) (ea : Nat), ea = ((s.reg rm).toNat + k.toNat) % 65536 →
    exec (.str k rm rn) s = .next (
      if ea = 0xF001 then { s with diag := s.diag ++ [.outChar (BitVec.ofNat 8 (s.reg rn).toNat)] }
      else if ea = 0xF003 then { s with diag := s.diag ++ [.outInt (s.reg rn).toInt] }
      else if ea < 8192 then { s with accessed := s.accessed.add ea, mem := s.mem.write ea (s.reg rn) }
      else s)

/-- R60: a write of 0xF001 emits the low byte of the word as one line, `OUT <= A` for 0x0141, and memory and `accessed` do not
change. -/
def Obligations.CharacterOutputEmitsLowByte : Prop :=
  (∀ (k : BitVec 4) (rm rn : Reg) (s : State), ((s.reg rm).toNat + k.toNat) % 65536 = 0xF001 →
    exec (.str k rm rn) s = .next { s with
      diag := s.diag ++ [.outChar (BitVec.ofNat 8 ((s.reg rn).toNat % 256))] }) ∧
  (∀ b : Byte, (Event.outChar b).lines = ["OUT <= " ++ glyph b]) ∧ glyph (BitVec.ofNat 8 (0x0141 % 256)) = "A"

/-- R61: a write of 0xF003 emits the word as a signed 16-bit integer, and memory and `accessed` do not change. -/
def Obligations.IntegerOutputIsSigned : Prop :=
  ∀ (k : BitVec 4) (rm rn : Reg) (s : State), ((s.reg rm).toNat + k.toNat) % 65536 = 0xF003 →
    exec (.str k rm rn) s = .next { s with
      diag := s.diag ++ [.outInt (if (s.reg rn).toNat < 32768 then ((s.reg rn).toNat : Int)
        else ((s.reg rn).toNat : Int) - 65536)] }

/-- The frame of the two storing instructions, STR at its effective address and PUSH at the decremented SP: every cell
but that one reads as before, that one reads as the stored word if it exists, and all cells read as before if it does
not (R63, R141, R170). Of the rest, STR leaves registers, and both leave flags, `next_pc` and status. -/
def Obligations.StoresTouchOneCell : Prop :=
  (∀ (k : BitVec 4) (rm rn : Reg) (s t : State), exec (.str k rm rn) s = .next t →
    (∀ a, a ≠ (s.effectiveAddress rm k).toNat → t.cell a = s.cell a) ∧
    ((s.effectiveAddress rm k).toNat < 8192 → t.cell (s.effectiveAddress rm k).toNat = s.reg rn) ∧
    (8192 ≤ (s.effectiveAddress rm k).toNat → ∀ a, t.cell a = s.cell a) ∧
    (∀ r : Reg, t.reg r = s.reg r) ∧ t.z = s.z ∧ t.c = s.c ∧ t.nextPc = s.nextPc ∧ t.status = s.status ∧
    t.input = s.input ∧ t.draws = s.draws) ∧
  (∀ (ign : BitVec 8) (rn : Reg) (s t : State), exec (.push ign rn) s = .next t →
    (∀ a, a ≠ s.pushedSp.toNat → t.cell a = s.cell a) ∧
    (s.pushedSp.toNat < 8192 → t.cell s.pushedSp.toNat = if rn = 14 then s.pushedSp else s.reg rn) ∧
    (8192 ≤ s.pushedSp.toNat → ∀ a, t.cell a = s.cell a) ∧
    (∀ r : Reg, r ≠ 14 → t.reg r = s.reg r) ∧ t.reg 14 = s.pushedSp ∧ t.z = s.z ∧ t.c = s.c ∧
    t.nextPc = s.nextPc ∧ t.status = s.status ∧ t.accessed = s.accessed ∧ t.diag = s.diag ∧ t.input = s.input ∧
    t.draws = s.draws)

/-- MOV completes: the destination gets the immediate and nothing else changes (R142). Zero extension of immediates of
0x80 and above is the spec's decision D3 (log 2). -/
def Obligations.MovWritesImmediate : Prop :=
  ∀ (rd : Reg) (b : BitVec 8) (s : State),
    exec (.mov rd b) s = .next { s with regs := s.regs.set rd (BitVec.ofNat 16 b.toNat) }

/-- R142: for immediates up to 0x7F the two readings of MOV's immediate give the same word; above they differ. -/
def Obligations.MovReadingsAgreeBelow80 : Prop :=
  ∀ b : BitVec 8, movValue true b = movValue false b ↔ b.toNat ≤ 0x7F

/-- R67: no data access can end the run: LDR, STR, PUSH and POP answer a next state with the same status in every
state. For an LDR held at an empty input port, which does not complete (R37, R62, R114), the state answered is the same
one, by the model's choice (log 12). -/
def Obligations.DataAccessNeverEndsTheRun : Prop :=
  ∀ (i : Instr) (s : State),
    ((∃ rd rm k, i = .ldr rd rm k) ∨ (∃ k rm rn, i = .str k rm rn) ∨ (∃ g rn, i = .push g rn) ∨ (∃ rd g, i = .pop rd g)) →
    ∃ t, exec i s = .next t ∧ t.status = s.status

/-! ### Arithmetic, logic, shifts, compare -/

/-- ADD and ADDI complete with the sum mod 2^16, C the carry out of bit 15, Z the zero test, and nothing else changed
(R150, R151). -/
def Obligations.AdditionResult : Prop :=
  ∀ (rd rm rn : Reg) (k : BitVec 4) (s : State),
    exec (.add rd rm rn) s = .next { s with
      regs := s.regs.set rd (s.reg rm + s.reg rn),
      z := decide (((s.reg rm).toNat + (s.reg rn).toNat) % 65536 = 0),
      c := decide (65535 < (s.reg rm).toNat + (s.reg rn).toNat) } ∧
    exec (.addi rd rm k) s = .next { s with
      regs := s.regs.set rd (s.reg rm + BitVec.ofNat 16 k.toNat),
      z := decide (((s.reg rm).toNat + k.toNat) % 65536 = 0),
      c := decide (65535 < (s.reg rm).toNat + k.toNat) }

/-- SUB and SUBI complete with the difference mod 2^16, C the unsigned borrow, Z the zero test, and nothing else changed
(R152, R153). -/
def Obligations.SubtractionResult : Prop :=
  ∀ (rd rm rn : Reg) (k : BitVec 4) (s : State),
    exec (.sub rd rm rn) s = .next { s with
      regs := s.regs.set rd (s.reg rm - s.reg rn),
      z := decide (s.reg rm = s.reg rn), c := decide ((s.reg rm).toNat < (s.reg rn).toNat) } ∧
    exec (.subi rd rm k) s = .next { s with
      regs := s.regs.set rd (s.reg rm - BitVec.ofNat 16 k.toNat),
      z := decide ((s.reg rm).toNat = k.toNat), c := decide ((s.reg rm).toNat < k.toNat) }

/-- R154: sums and differences are taken mod 2^16, C is bit 16 of the sum or the unsigned borrow, Z is 1 exactly when the
result written is 0, also for the shifts, and no arithmetic instruction raises an exception. That SHR is logical is
decision D7 (log 6). -/
def Obligations.ArithmeticLaws : Prop :=
  ∀ (rd rm rn : Reg) (k : BitVec 4) (s : State),
    (∃ t, exec (.add rd rm rn) s = .next t ∧ (t.reg rd).toNat = ((s.reg rm).toNat + (s.reg rn).toNat) % 65536 ∧
      (t.c = true ↔ ((s.reg rm).toNat + (s.reg rn).toNat) / 65536 = 1) ∧ (t.z = true ↔ t.reg rd = 0)) ∧
    (∃ t, exec (.addi rd rm k) s = .next t ∧ (t.reg rd).toNat = ((s.reg rm).toNat + k.toNat) % 65536 ∧
      (t.c = true ↔ ((s.reg rm).toNat + k.toNat) / 65536 = 1) ∧ (t.z = true ↔ t.reg rd = 0)) ∧
    (∃ t, exec (.sub rd rm rn) s = .next t ∧
      (t.reg rd).toNat = ((s.reg rm).toNat + 65536 - (s.reg rn).toNat) % 65536 ∧
      (t.c = true ↔ (s.reg rm).toNat < (s.reg rn).toNat) ∧ (t.z = true ↔ t.reg rd = 0)) ∧
    (∃ t, exec (.subi rd rm k) s = .next t ∧ (t.reg rd).toNat = ((s.reg rm).toNat + 65536 - k.toNat) % 65536 ∧
      (t.c = true ↔ (s.reg rm).toNat < k.toNat) ∧ (t.z = true ↔ t.reg rd = 0)) ∧
    (∃ t, exec (.shl rd rm k) s = .next t ∧ (t.reg rd).toNat = ((s.reg rm).toNat * 2 ^ k.toNat) % 65536 ∧
      (t.z = true ↔ t.reg rd = 0)) ∧
    (∃ t, exec (.shr rd rm k) s = .next t ∧ (t.reg rd).toNat = (s.reg rm).toNat / 2 ^ k.toNat ∧
      (t.z = true ↔ t.reg rd = 0))

/-- AND and OR complete with the bitwise result, C cleared, Z the zero test, and nothing else changed (R160, R161,
R166). -/
def Obligations.LogicResult : Prop :=
  ∀ (rd rm rn : Reg) (s : State),
    exec (.and rd rm rn) s = .next { s with
      regs := s.regs.set rd (s.reg rm &&& s.reg rn), z := decide (s.reg rm &&& s.reg rn = 0), c := false } ∧
    exec (.or rd rm rn) s = .next { s with
      regs := s.regs.set rd (s.reg rm ||| s.reg rn), z := decide (s.reg rm = 0 ∧ s.reg rn = 0), c := false }

/-- SHR completes with the logical shift, C the last bit shifted out (0 for a count of 0), Z the zero test, and nothing
else changed (R162; logical by decision D7, log 6). -/
def Obligations.ShiftRightResult : Prop :=
  ∀ (rd rm : Reg) (k : BitVec 4) (s : State),
    exec (.shr rd rm k) s = .next { s with
      regs := s.regs.set rd (s.reg rm >>> k.toNat), z := decide ((s.reg rm).toNat < 2 ^ k.toNat),
      c := decide (k.toNat ≠ 0 ∧ (s.reg rm).toNat / 2 ^ (k.toNat - 1) % 2 = 1) }

/-- SHL completes with the shift, C 1 exactly when any bit lost was 1, Z the zero test, and nothing else changed
(R163). -/
def Obligations.ShiftLeftResult : Prop :=
  ∀ (rd rm : Reg) (k : BitVec 4) (s : State),
    exec (.shl rd rm k) s = .next { s with
      regs := s.regs.set rd (s.reg rm <<< k.toNat), z := decide (s.reg rm <<< k.toNat = 0),
      c := decide ((s.reg rm).toNat / 2 ^ (16 - k.toNat) ≠ 0) }

/-- CMP completes with Z and C of the unsigned comparison and no register written (R164; unsigned by decision D8,
log 7). -/
def Obligations.CompareResult : Prop :=
  ∀ (ign : BitVec 4) (rm rn : Reg) (s : State),
    exec (.cmp ign rm rn) s = .next { s with
      z := decide (s.reg rm = s.reg rn), c := decide ((s.reg rm).toNat < (s.reg rn).toNat) }

/-- R164, R152, R31: the flags after CMP are those SUB gives, and SUB, SUBI and CMP never leave Z = 1 and C = 1. -/
def Obligations.CompareFlagsAreSubtractFlags : Prop :=
  ∀ (rd rm rn : Reg) (k ign : BitVec 4) (s t u v : State), exec (.cmp ign rm rn) s = .next t →
    exec (.sub rd rm rn) s = .next u → exec (.subi rd rm k) s = .next v →
    t.z = u.z ∧ t.c = u.c ∧ ¬ (t.z = true ∧ t.c = true) ∧ ¬ (v.z = true ∧ v.c = true)

/-- The frame of the register instructions: ADD, ADDI, SUB, SUBI, AND, OR, SHR, SHL write the destination and the two
flags, MOV the destination; every other register, every cell and the rest of the state stay (R30, R68). -/
def Obligations.RegisterInstructionsFrame : Prop :=
  ∀ (rd rm rn : Reg) (k : BitVec 4) (b : BitVec 8) (i : Instr) (s t : State),
    i ∈ [.add rd rm rn, .addi rd rm k, .sub rd rm rn, .subi rd rm k, .and rd rm rn, .or rd rm rn, .shr rd rm k,
      .shl rd rm k, .mov rd b] → exec i s = .next t →
    (∀ r : Reg, r ≠ rd → t.reg r = s.reg r) ∧ (∀ a, t.cell a = s.cell a) ∧ t.accessed = s.accessed ∧
    t.nextPc = s.nextPc ∧ t.status = s.status ∧ t.breakpoints = s.breakpoints ∧ t.input = s.input ∧
    t.inputEnded = s.inputEnded ∧ t.diag = s.diag ∧ t.draws = s.draws ∧
    (i = .mov rd b → t.z = s.z ∧ t.c = s.c)

/-- R30: the flags are written, both together, by exactly ADD, ADDI, SUB, SUBI, AND, OR, SHR, SHL and CMP, which read
neither of them; every other instruction leaves both, and of those only the conditional jumps read them; both are 0
after reset (R39, decision D17, log 16) and shown by the dump. -/
def Obligations.FlagsWrittenByNineInstructions : Prop :=
  (∀ (i : Instr) (s t : State), exec i s = .next t →
    i.opcodeNumber < 5 ∨ 13 < i.opcodeNumber → t.z = s.z ∧ t.c = s.c) ∧
  (∀ (i : Instr) (s : State) (z c : Bool), 5 ≤ i.opcodeNumber → i.opcodeNumber ≤ 13 →
    exec i { s with z := z, c := c } = exec i s) ∧
  (∀ (i : Instr) (s t : State) (z c : Bool), i.opcodeNumber ≠ 1 → i.opcodeNumber < 5 ∨ 13 < i.opcodeNumber →
    exec i s = .next t → exec i { s with z := z, c := c } = .next { t with z := z, c := c }) ∧
  State.reset.z = false ∧ State.reset.c = false ∧ ∀ s : State, s.dumpOf.z = s.z ∧ s.dumpOf.c = s.c

/-! ### Stack -/

/-- PUSH completes: SP is decremented mod 2^16 always, and the register, read after the decrement (D9, log 8), is stored
at the new SP if that is in memory; `accessed` is not marked (D6, log 4) (R170, R172). -/
def Obligations.PushResult : Prop :=
  ∀ (ign : BitVec 8) (rn : Reg) (s : State),
    exec (.push ign rn) s = .next (if (s.reg 14 - 1).toNat < 8192
      then { s with
        regs := s.regs.set 14 (s.reg 14 - 1),
        mem := s.mem.write (s.reg 14 - 1).toNat (if rn = 14 then s.reg 14 - 1 else s.reg rn) }
      else { s with regs := s.regs.set 14 (s.reg 14 - 1) })

/-- POP completes: the word at SP, or 0 outside memory, SP incremented mod 2^16 always, then the word goes to the
destination, or to `next_pc` for destination 15 (R171, order D9, log 8). For destination 14 the popped word is SP. -/
def Obligations.PopResult : Prop :=
  ∀ (ign : BitVec 8) (rd : Reg) (s : State) (v : Word),
    v = (if (s.reg 14).toNat < 8192 then s.cell (s.reg 14).toNat else 0) →
    exec (.pop rd ign) s = .next (
      if rd = 15 then { s with regs := s.regs.set 14 (s.reg 14 + 1), nextPc := v }
      else if rd = 14 then { s with regs := s.regs.set 14 v }
      else { s with regs := (s.regs.set 14 (s.reg 14 + 1)).set rd v })

/-- The frame of POP: every register but SP and the destination, every cell, the flags and the rest stay; destination 15
leaves register 15 alone (R171). -/
def Obligations.PopFrame : Prop :=
  ∀ (ign : BitVec 8) (rd : Reg) (s t : State), exec (.pop rd ign) s = .next t →
    (∀ r : Reg, r ≠ 14 → (r ≠ rd ∨ rd = 15) → t.reg r = s.reg r) ∧ (∀ a, t.cell a = s.cell a) ∧
    t.accessed = s.accessed ∧ t.z = s.z ∧ t.c = s.c ∧ t.status = s.status ∧ t.breakpoints = s.breakpoints ∧
    t.input = s.input ∧ t.inputEnded = s.inputEnded ∧ t.diag = s.diag ∧ t.draws = s.draws

/-- R173: PUSH then POP of the same register, for registers 0 to 13 and SP in 1..0x2000, restores the register and SP
and every other register; only the cell below SP is changed. -/
def Obligations.PushThenPopRestores : Prop :=
  ∀ (g h : BitVec 8) (r : Reg) (s : State), r.val ≤ 13 → 1 ≤ (s.reg 14).toNat → (s.reg 14).toNat ≤ 0x2000 →
    ∃ t u, exec (.push g r) s = .next t ∧ exec (.pop r h) t = .next u ∧ u.regs = s.regs ∧
      u = { s with mem := s.mem.write ((s.reg 14).toNat - 1) (s.reg r) }

/-! ### Rules of the whole machine -/

/-- R66, R68, R35: over one step, a cell changes only if the instruction is STR or PUSH and it is the cell at the
effective address or the decremented SP; an address becomes accessed only if the instruction is LDR or STR at that
effective address; no address stops being accessed. -/
def Obligations.OnlyTheseInstructionsTouchMemory : Prop :=
  ∀ s t : State, step s = .next t →
    (∀ a, t.cell a ≠ s.cell a →
      (∃ k rm rn, decode s.fetchWord = .str k rm rn ∧ a = (s.advance.effectiveAddress rm k).toNat ∧ a < 8192) ∨
      (∃ g rn, decode s.fetchWord = .push g rn ∧ a = s.pushedSp.toNat ∧ a < 8192)) ∧
    (∀ a, a ∈ t.accessed → a ∉ s.accessed →
      (∃ k rm rn, decode s.fetchWord = .str k rm rn ∧ a = (s.advance.effectiveAddress rm k).toNat ∧ a < 8192) ∨
      (∃ rd rm k, decode s.fetchWord = .ldr rd rm k ∧ a = (s.advance.effectiveAddress rm k).toNat ∧ a < 8192)) ∧
    (∀ a, a ∈ s.accessed → a ∈ t.accessed)

/-- R37, R38, R5: a step never changes the breakpoint set, only appends to the diagnostic stream, and consumes at most
one item of the input, the next one. -/
def Obligations.StepKeepsRunInputs : Prop :=
  ∀ s t : State, step s = .next t →
    t.breakpoints = s.breakpoints ∧ t.inputEnded = s.inputEnded ∧ s.diag <+: t.diag ∧
    (t.input = s.input ∨ ∃ item, s.input = item :: t.input)

/-- R69: a read gives the word last written to that cell and every other cell is left alone, in every memory. -/
def Obligations.ReadGivesLastWrite : Prop :=
  ∀ (s : State) (a b : Nat) (v : Word), (s.setCell a v).cell b = if a = b then v else s.cell b

/-- R71: a store is seen by the very next fetch: STR to A + 1 makes the word it stores the next one fetched. -/
def Obligations.StoreSeenByNextFetch : Prop :=
  ∀ (s t : State) (k : BitVec 4) (rm rn : Reg), s.ready → decode s.fetchWord = .str k rm rn →
    (s.advance.effectiveAddress rm k).toNat = s.pc.toNat + 1 → s.pc.toNat + 1 < 8192 → step s = .next t →
    t.fetchWord = s.advance.reg rn

/-- R210, R39: the state after reset, every piece of it. Z, C, `next_pc` and `accessed` are 0 by decision D17
(log 16). -/
def Obligations.ResetState : Prop :=
  (∀ r : Reg, State.reset.reg r = if r = 14 then 0x2000 else 0) ∧ (∀ a, State.reset.cell a = 0) ∧
  State.reset.accessed = [] ∧ State.reset.z = false ∧ State.reset.c = false ∧ State.reset.nextPc = 0 ∧
  State.reset.status = .running

/-- R212: the load writes the array directly, a later pair over an earlier one, ignores addresses outside it, leaves every
cell the image does not mention, and sets nothing else. An empty image loads nothing. Reduction of wide values is decision D15 (log 17). -/
def Obligations.LoadWritesOnlyMemory : Prop :=
  ∀ (s : State) (image : List (Nat × Nat)) (a v : Nat),
    s.load [] = s ∧
    (∀ b, (∀ p ∈ image, p.1 ≠ b) → (s.load image).cell b = s.cell b) ∧
    (a < 8192 → (s.load (image ++ [(a, v)])).cell a = BitVec.ofNat 16 v) ∧
    (∀ b, b ≠ a → (s.load (image ++ [(a, v)])).cell b = (s.load image).cell b) ∧
    (8192 ≤ a → s.load (image ++ [(a, v)]) = s.load image) ∧
    s.load image = { s with mem := (s.load image).mem }

/-- The invariant holds after reset, and at the first cycle of any run: after any load and any breakpoint set. -/
def Obligations.InvariantAtReset : Prop :=
  State.reset.Inv ∧ ∀ (image : List (Nat × Nat)) (addresses : List Nat), (State.boot image addresses).Inv

/-- Every step keeps the invariant: memory, `accessed` and the breakpoint set stay in canonical form inside 0..8191, and
`next_pc` is what the commit copied to register 15 (R26, R35, R38, R50, R116). -/
def Obligations.StepKeepsInvariant : Prop :=
  ∀ s t : State, s.Inv → step s = .next t → t.Inv

/-- R181, R182, R201 over whole runs, from any state that meets the invariant and has not aborted: a run of any length
keeps the invariant, is never refused, and if it stops it stops by an overrun, in an ABORTED state that still meets the
invariant. -/
def Obligations.RunsStopOnlyByOverrun : Prop :=
  ∀ (n : Nat) (s : State), s.Inv → s.status ≠ .aborted →
    match Host.Core.run Sys2Proof.core n s with
    | .next t => t.Inv ∧ t.status ≠ .aborted
    | .fault (.pcOutOfBounds pc t) => t.Inv ∧ t.status = .aborted ∧ t.reg 15 = pc ∧ 8192 ≤ pc.toNat
    | .refused _ => False

/-- R200: the debug hook is invisible to a program: two states that differ only in the breakpoint set, `accessed` and the
diagnostic stream stay so, over runs of any length. -/
def Obligations.DebugMachineryIsInvisible : Prop :=
  ∀ (n : Nat) (s t : State), s.withoutDebug = t.withoutDebug →
    outcomeWithoutDebug (Host.Core.run Sys2Proof.core n s) = outcomeWithoutDebug (Host.Core.run Sys2Proof.core n t)
end

