-- ==== Sys2Proof/Laws/Encoding.lean ====
section
/-! SUPPORT. Fields of packed words, and packed words of fields (R81 to R88, R90). -/

namespace Sys2Proof

@[simp] theorem ofBits_toBits (r : Reg) : Reg.ofBits r.toBits = r := by
  apply Fin.ext
  simp only [Reg.ofBits, Reg.toBits, BitVec.toNat_ofNat]
  exact Nat.mod_eq_of_lt r.isLt

@[simp] theorem toBits_ofBits (b : BitVec 4) : (Reg.ofBits b).toBits = b := by
  simp [Reg.ofBits, Reg.toBits]

/-- A field that lies wholly inside the low part of an append. -/
theorem extract_append_low {m n : Nat} (x : BitVec m) (y : BitVec n) (i k : Nat) (h : i + k ≤ n) :
    (x ++ y).extractLsb' i k = y.extractLsb' i k := by
  apply BitVec.eq_of_getElem_eq
  intro j hj
  simp only [BitVec.getElem_extractLsb', BitVec.getLsbD_append]
  simp [show i + j < n by omega]

/-- A field that lies wholly inside the high part of an append. -/
theorem extract_append_high {m n : Nat} (x : BitVec m) (y : BitVec n) (i k : Nat) (h : n ≤ i) :
    (x ++ y).extractLsb' i k = x.extractLsb' (i - n) k := by
  apply BitVec.eq_of_getElem_eq
  intro j hj
  simp only [BitVec.getElem_extractLsb', BitVec.getLsbD_append]
  simp [show ¬ i + j < n by omega, show i + j - n = i - n + j by omega]

theorem extract_all {m : Nat} (x : BitVec m) : x.extractLsb' 0 m = x := by simp

/-- Two adjacent fields appended are the field that spans them. -/
theorem append_extract {m : Nat} (x : BitVec m) (i k l : Nat) :
    x.extractLsb' (i + l) k ++ x.extractLsb' i l = x.extractLsb' i (k + l) := by
  apply BitVec.eq_of_getElem_eq
  intro j hj
  simp only [BitVec.getElem_append, BitVec.getElem_extractLsb']
  split
  · rfl
  · rename_i h
    simp [show i + l + (j - l) = i + j by omega]

section fields
variable (a b c o : BitVec 4) (e : BitVec 8) (off10 : BitVec 10) (off12 : BitVec 12) (cc : BitVec 2)

/-! Each packed word, cut below at bit 4, at bit 8 and at bit 12. -/

@[simp] theorem opcodeOf_packNibbles : opcodeOf (packNibbles a b c o) = o :=
  (extract_append_low (a ++ b ++ c) o 0 4 (by decide)).trans (extract_all o)
@[simp] theorem opcodeOf_packOff12 : opcodeOf (packOff12 off12 o) = o :=
  (extract_append_low off12 o 0 4 (by decide)).trans (extract_all o)
@[simp] theorem opcodeOf_packCond : opcodeOf (packCond cc off10 o) = o :=
  (extract_append_low (cc ++ off10) o 0 4 (by decide)).trans (extract_all o)
@[simp] theorem opcodeOf_packNibbleByte : opcodeOf (packNibbleByte a e o) = o :=
  (extract_append_low (a ++ e) o 0 4 (by decide)).trans (extract_all o)
@[simp] theorem opcodeOf_packByteNibble : opcodeOf (packByteNibble e a o) = o :=
  (extract_append_low (e ++ a) o 0 4 (by decide)).trans (extract_all o)

theorem nibble3_packNibbles : (packNibbles a b c o).extractLsb' 12 4 = a :=
  (extract_append_high (a ++ b ++ c) o 12 4 (by decide)).trans
    ((extract_append_high (a ++ b) c 8 4 (by decide)).trans
      ((extract_append_high a b 4 4 (by decide)).trans (extract_all a)))
theorem nibble2_packNibbles : (packNibbles a b c o).extractLsb' 8 4 = b :=
  (extract_append_high (a ++ b ++ c) o 8 4 (by decide)).trans
    ((extract_append_high (a ++ b) c 4 4 (by decide)).trans
      ((extract_append_low a b 0 4 (by decide)).trans (extract_all b)))
theorem nibble1_packNibbles : (packNibbles a b c o).extractLsb' 4 4 = c :=
  (extract_append_high (a ++ b ++ c) o 4 4 (by decide)).trans
    ((extract_append_low (a ++ b) c 0 4 (by decide)).trans (extract_all c))

@[simp] theorem rdOf_packNibbles : rdOf (packNibbles a b c o) = Reg.ofBits a :=
  congrArg Reg.ofBits (nibble3_packNibbles a b c o)
@[simp] theorem rmOf_packNibbles : rmOf (packNibbles a b c o) = Reg.ofBits b :=
  congrArg Reg.ofBits (nibble2_packNibbles a b c o)
@[simp] theorem rnOf_packNibbles : rnOf (packNibbles a b c o) = Reg.ofBits c :=
  congrArg Reg.ofBits (nibble1_packNibbles a b c o)
@[simp] theorem imm4Of_packNibbles : imm4Of (packNibbles a b c o) = c := nibble1_packNibbles a b c o
@[simp] theorem imm4hiOf_packNibbles : imm4hiOf (packNibbles a b c o) = a := nibble3_packNibbles a b c o
@[simp] theorem off12Of_packOff12 : off12Of (packOff12 off12 o) = off12 :=
  (extract_append_high off12 o 4 12 (by decide)).trans (extract_all off12)
@[simp] theorem off10Of_packCond : off10Of (packCond cc off10 o) = off10 :=
  (extract_append_high (cc ++ off10) o 4 10 (by decide)).trans
    ((extract_append_low cc off10 0 10 (by decide)).trans (extract_all off10))
@[simp] theorem ccOf_packCond : ccOf (packCond cc off10 o) = cc :=
  (extract_append_high (cc ++ off10) o 14 2 (by decide)).trans
    ((extract_append_high cc off10 10 2 (by decide)).trans (extract_all cc))
@[simp] theorem rdOf_packNibbleByte : rdOf (packNibbleByte a e o) = Reg.ofBits a :=
  congrArg Reg.ofBits ((extract_append_high (a ++ e) o 12 4 (by decide)).trans
    ((extract_append_high a e 8 4 (by decide)).trans (extract_all a)))
@[simp] theorem imm8Of_packNibbleByte : imm8Of (packNibbleByte a e o) = e :=
  (extract_append_high (a ++ e) o 4 8 (by decide)).trans
    ((extract_append_low a e 0 8 (by decide)).trans (extract_all e))
@[simp] theorem high8Of_packByteNibble : high8Of (packByteNibble e a o) = e :=
  (extract_append_high (e ++ a) o 8 8 (by decide)).trans
    ((extract_append_high e a 4 8 (by decide)).trans (extract_all e))
@[simp] theorem rnOf_packByteNibble : rnOf (packByteNibble e a o) = Reg.ofBits a :=
  congrArg Reg.ofBits ((extract_append_high (e ++ a) o 4 4 (by decide)).trans
    ((extract_append_low e a 0 4 (by decide)).trans (extract_all a)))
end fields

/-! Each word is its fields packed again. -/

/-- Two adjacent fields of a word, appended, are one field. -/
theorem packOff12_fields (w : Word) : packOff12 (off12Of w) (opcodeOf w) = w :=
  (append_extract w 0 12 4).trans (extract_all w)

theorem packNibbles_fields (w : Word) :
    packNibbles (w.extractLsb' 12 4) (w.extractLsb' 8 4) (w.extractLsb' 4 4) (opcodeOf w) = w := by
  have h1 : w.extractLsb' 12 4 ++ w.extractLsb' 8 4 = w.extractLsb' 8 8 := append_extract w 8 4 4
  have h2 : w.extractLsb' 8 8 ++ w.extractLsb' 4 4 = off12Of w := append_extract w 4 8 4
  unfold packNibbles
  rw [h1, h2]
  exact packOff12_fields w

theorem packCond_fields (w : Word) : packCond (ccOf w) (off10Of w) (opcodeOf w) = w := by
  have h : ccOf w ++ off10Of w = off12Of w := append_extract w 4 2 10
  unfold packCond
  rw [h]
  exact packOff12_fields w

theorem packNibbleByte_fields (w : Word) : packNibbleByte (w.extractLsb' 12 4) (imm8Of w) (opcodeOf w) = w := by
  have h : w.extractLsb' 12 4 ++ imm8Of w = off12Of w := append_extract w 4 4 8
  unfold packNibbleByte
  rw [h]
  exact packOff12_fields w

theorem packByteNibble_fields (w : Word) : packByteNibble (high8Of w) (w.extractLsb' 4 4) (opcodeOf w) = w := by
  have h : high8Of w ++ w.extractLsb' 4 4 = off12Of w := append_extract w 4 8 4
  unfold packByteNibble
  rw [h]
  exact packOff12_fields w

/-- The sentinel's opcode nibble is 15 (R95). -/
theorem opcodeOf_haltWord : opcodeOf haltWord = 15#4 := by decide

/-- A word with another opcode nibble is not the sentinel, and decodes by its opcode (R91). -/
theorem decode_of_opcode_ne {w : Word} (h : opcodeOf w ≠ 15#4) : decode w = decodeOpcode w := by
  have : w ≠ haltWord := by rintro rfl; exact h opcodeOf_haltWord
  simp [decode, this]

end Sys2Proof
end

