-- ==== Sys2Proof/Laws/Memory.lean ====
section
/-! SUPPORT. The laws of memory and of sets of addresses: read after write, and that every operation keeps the canonical
form (R50, R69). -/

namespace Sys2Proof.Machine

/-! ### Memory -/

/-- Reading around a cell that was put in. -/
theorem read_place (m : Memory) (a b : Nat) (v : Word) (h : ∀ p ∈ m, p.1 ≠ a) :
    (Memory.place a v m).read b = if a = b then v else m.read b := by
  induction m with
  | nil => simp [Memory.place, Memory.read]
  | cons p m ih =>
    obtain ⟨k, w⟩ := p
    have hk : k ≠ a := h (k, w) (by simp)
    have ih := ih (fun q hq => h q (by simp [hq]))
    by_cases hlt : a < k
    · simp [Memory.place, hlt, Memory.read]
    · simp only [Memory.place, hlt, if_false, Memory.read, ih]
      by_cases hab : a = b
      · subst hab; simp [hk]
      · simp [hab]

/-- Reading around a cell that was taken out. -/
theorem read_filter (m : Memory) (a b : Nat) :
    Memory.read (m.filter (fun p => p.1 ≠ a)) b = if a = b then 0 else m.read b := by
  induction m with
  | nil => simp [Memory.read]
  | cons p m ih =>
    obtain ⟨k, w⟩ := p
    by_cases hk : k = a
    · subst hk
      by_cases hb : k = b
      · subst hb; simpa using ih
      · simpa [Memory.read, hb] using ih
    · have : (List.filter (fun p : MemCell => p.1 ≠ a) ((k, w) :: m))
          = (k, w) :: List.filter (fun p : MemCell => p.1 ≠ a) m := by simp [hk]
      rw [this]
      simp only [Memory.read, ih]
      by_cases hb : a = b
      · subst hb; simp [hk]
      · simp [hb]

/-- A read gives the value last written there, and a write leaves every other cell alone (R69), in every memory. -/
theorem read_write (m : Memory) (a b : Nat) (v : Word) :
    (m.write a v).read b = if a = b then v else m.read b := by
  unfold Memory.write
  by_cases hv : v = 0
  · simp only [hv, if_true]
    exact read_filter m a b
  · simp only [hv, if_false]
    rw [read_place _ a b v (by simp), read_filter]
    split <;> rfl

@[simp] theorem read_write_same (m : Memory) (a : Nat) (v : Word) : (m.write a v).read a = v := by
  simp [read_write]

@[simp] theorem read_write_of_ne (m : Memory) {a b : Nat} (h : a ≠ b) (v : Word) :
    (m.write a v).read b = m.read b := by
  simp [read_write, h]

/-- The cells after one was put in. -/
theorem mem_place (m : Memory) (a : Nat) (v : Word) (p : MemCell) :
    p ∈ Memory.place a v m ↔ p = (a, v) ∨ p ∈ m := by
  induction m with
  | nil => simp [Memory.place]
  | cons q m ih =>
    by_cases h : a < q.1
    · simp [Memory.place, h]
    · simp only [Memory.place, h, if_false, List.mem_cons, ih]
      tauto

/-- Putting a cell in keeps the addresses rising. -/
theorem place_pairwise (m : Memory) (a : Nat) (v : Word) (h : m.Pairwise (fun p q => p.1 < q.1))
    (hn : ∀ p ∈ m, p.1 ≠ a) : (Memory.place a v m).Pairwise (fun p q => p.1 < q.1) := by
  induction m with
  | nil => simp [Memory.place]
  | cons q m ih =>
    rw [List.pairwise_cons] at h
    by_cases hlt : a < q.1
    · simp only [Memory.place, hlt, if_true, List.pairwise_cons]
      exact ⟨fun p hp => by
        rcases List.mem_cons.mp hp with rfl | hp
        · exact hlt
        · exact lt_trans hlt (h.1 p hp), h.1, h.2⟩
    · simp only [Memory.place, hlt, if_false, List.pairwise_cons]
      refine ⟨fun p hp => ?_, ih h.2 (fun p hp => hn p (by simp [hp]))⟩
      rcases (mem_place m a v p).mp hp with rfl | hp
      · have := hn q (by simp)
        show q.1 < a
        omega
      · exact h.1 p hp

/-- A write inside the array keeps the canonical form. -/
theorem write_wf {m : Memory} {a : Nat} (h : m.wf) (ha : a < memWords) (v : Word) : (m.write a v).wf := by
  have hf : (m.filter (fun p => p.1 ≠ a)).Pairwise (fun p q => p.1 < q.1) := h.1.filter _
  have hm : ∀ p ∈ m.filter (fun p => p.1 ≠ a), p.1 < memWords ∧ p.2 ≠ 0 :=
    fun p hp => h.2 p (List.mem_of_mem_filter hp)
  unfold Memory.write
  by_cases hv : v = 0
  · simpa only [hv, if_true] using ⟨hf, hm⟩
  · simp only [hv, if_false]
    refine ⟨place_pairwise _ a v hf (by simp), fun p hp => ?_⟩
    rcases (mem_place _ a v p).mp hp with rfl | hp
    · exact ⟨ha, hv⟩
    · exact hm p hp

/-! ### Sets of addresses -/

theorem mem_addrSet_place (l : AddrSet) (a b : Nat) : b ∈ AddrSet.place a l ↔ b = a ∨ b ∈ l := by
  induction l with
  | nil => simp [AddrSet.place]
  | cons q l ih =>
    by_cases h : a < q
    · simp [AddrSet.place, h]
    · simp only [AddrSet.place, h, if_false, List.mem_cons, ih]
      tauto

/-- Adding an address adds it and nothing else. -/
@[simp] theorem mem_add (l : AddrSet) (a b : Nat) : b ∈ l.add a ↔ b = a ∨ b ∈ l := by
  unfold AddrSet.add
  split
  · constructor
    · exact Or.inr
    · rintro (rfl | h) <;> assumption
  · exact mem_addrSet_place l a b

theorem addrSet_place_pairwise (l : AddrSet) (a : Nat) (h : l.Pairwise (fun x y => x < y)) (hn : a ∉ l) :
    (AddrSet.place a l).Pairwise (fun x y => x < y) := by
  induction l with
  | nil => simp [AddrSet.place]
  | cons q l ih =>
    rw [List.pairwise_cons] at h
    simp only [List.mem_cons, not_or] at hn
    by_cases hlt : a < q
    · simp only [AddrSet.place, hlt, if_true, List.pairwise_cons]
      exact ⟨fun b hb => by
        rcases List.mem_cons.mp hb with rfl | hb
        · exact hlt
        · exact lt_trans hlt (h.1 b hb), h.1, h.2⟩
    · simp only [AddrSet.place, hlt, if_false, List.pairwise_cons]
      refine ⟨fun b hb => ?_, ih h.2 hn.2⟩
      rcases (mem_addrSet_place l a b).mp hb with rfl | hb
      · omega
      · exact h.1 b hb

/-- Adding an address of the array keeps the canonical form. -/
theorem add_wf {l : AddrSet} {a : Nat} (h : l.wf) (ha : a < memWords) : (l.add a).wf := by
  unfold AddrSet.add
  split
  · exact h
  · rename_i hn
    refine ⟨addrSet_place_pairwise l a h.1 hn, fun b hb => ?_⟩
    rcases (mem_addrSet_place l a b).mp hb with rfl | hb
    · exact ha
    · exact h.2 b hb

end Sys2Proof.Machine
end

