-- ==== Sys2Proof/Laws/State.lean ====
section
/-! SUPPORT. One lemma per field per update of State, each true by rfl, so that no proof unfolds a record update; then the
register read after each update. -/

namespace Sys2Proof.Machine

variable (s : State)

@[simp] theorem setReg_regs (r : Reg) (v : Word) : (s.setReg r v).regs = s.regs.set r v := rfl
@[simp] theorem setReg_mem (r : Reg) (v : Word) : (s.setReg r v).mem = s.mem := rfl
@[simp] theorem setReg_accessed (r : Reg) (v : Word) : (s.setReg r v).accessed = s.accessed := rfl
@[simp] theorem setReg_z (r : Reg) (v : Word) : (s.setReg r v).z = s.z := rfl
@[simp] theorem setReg_c (r : Reg) (v : Word) : (s.setReg r v).c = s.c := rfl
@[simp] theorem setReg_nextPc (r : Reg) (v : Word) : (s.setReg r v).nextPc = s.nextPc := rfl
@[simp] theorem setReg_status (r : Reg) (v : Word) : (s.setReg r v).status = s.status := rfl
@[simp] theorem setReg_breakpoints (r : Reg) (v : Word) : (s.setReg r v).breakpoints = s.breakpoints := rfl
@[simp] theorem setReg_input (r : Reg) (v : Word) : (s.setReg r v).input = s.input := rfl
@[simp] theorem setReg_inputEnded (r : Reg) (v : Word) : (s.setReg r v).inputEnded = s.inputEnded := rfl
@[simp] theorem setReg_diag (r : Reg) (v : Word) : (s.setReg r v).diag = s.diag := rfl
@[simp] theorem setReg_draws (r : Reg) (v : Word) : (s.setReg r v).draws = s.draws := rfl

@[simp] theorem setFlags_regs (zf cf : Bool) : (s.setFlags zf cf).regs = s.regs := rfl
@[simp] theorem setFlags_mem (zf cf : Bool) : (s.setFlags zf cf).mem = s.mem := rfl
@[simp] theorem setFlags_accessed (zf cf : Bool) : (s.setFlags zf cf).accessed = s.accessed := rfl
@[simp] theorem setFlags_z (zf cf : Bool) : (s.setFlags zf cf).z = zf := rfl
@[simp] theorem setFlags_c (zf cf : Bool) : (s.setFlags zf cf).c = cf := rfl
@[simp] theorem setFlags_nextPc (zf cf : Bool) : (s.setFlags zf cf).nextPc = s.nextPc := rfl
@[simp] theorem setFlags_status (zf cf : Bool) : (s.setFlags zf cf).status = s.status := rfl
@[simp] theorem setFlags_breakpoints (zf cf : Bool) : (s.setFlags zf cf).breakpoints = s.breakpoints := rfl
@[simp] theorem setFlags_input (zf cf : Bool) : (s.setFlags zf cf).input = s.input := rfl
@[simp] theorem setFlags_inputEnded (zf cf : Bool) : (s.setFlags zf cf).inputEnded = s.inputEnded := rfl
@[simp] theorem setFlags_diag (zf cf : Bool) : (s.setFlags zf cf).diag = s.diag := rfl
@[simp] theorem setFlags_draws (zf cf : Bool) : (s.setFlags zf cf).draws = s.draws := rfl

@[simp] theorem stagePc_regs (v : Word) : (s.stagePc v).regs = s.regs := rfl
@[simp] theorem stagePc_mem (v : Word) : (s.stagePc v).mem = s.mem := rfl
@[simp] theorem stagePc_accessed (v : Word) : (s.stagePc v).accessed = s.accessed := rfl
@[simp] theorem stagePc_z (v : Word) : (s.stagePc v).z = s.z := rfl
@[simp] theorem stagePc_c (v : Word) : (s.stagePc v).c = s.c := rfl
@[simp] theorem stagePc_nextPc (v : Word) : (s.stagePc v).nextPc = v := rfl
@[simp] theorem stagePc_status (v : Word) : (s.stagePc v).status = s.status := rfl
@[simp] theorem stagePc_breakpoints (v : Word) : (s.stagePc v).breakpoints = s.breakpoints := rfl
@[simp] theorem stagePc_input (v : Word) : (s.stagePc v).input = s.input := rfl
@[simp] theorem stagePc_inputEnded (v : Word) : (s.stagePc v).inputEnded = s.inputEnded := rfl
@[simp] theorem stagePc_diag (v : Word) : (s.stagePc v).diag = s.diag := rfl
@[simp] theorem stagePc_draws (v : Word) : (s.stagePc v).draws = s.draws := rfl

@[simp] theorem setStatus_regs (st : RunStatus) : (s.setStatus st).regs = s.regs := rfl
@[simp] theorem setStatus_mem (st : RunStatus) : (s.setStatus st).mem = s.mem := rfl
@[simp] theorem setStatus_accessed (st : RunStatus) : (s.setStatus st).accessed = s.accessed := rfl
@[simp] theorem setStatus_z (st : RunStatus) : (s.setStatus st).z = s.z := rfl
@[simp] theorem setStatus_c (st : RunStatus) : (s.setStatus st).c = s.c := rfl
@[simp] theorem setStatus_nextPc (st : RunStatus) : (s.setStatus st).nextPc = s.nextPc := rfl
@[simp] theorem setStatus_status (st : RunStatus) : (s.setStatus st).status = st := rfl
@[simp] theorem setStatus_breakpoints (st : RunStatus) : (s.setStatus st).breakpoints = s.breakpoints := rfl
@[simp] theorem setStatus_input (st : RunStatus) : (s.setStatus st).input = s.input := rfl
@[simp] theorem setStatus_inputEnded (st : RunStatus) : (s.setStatus st).inputEnded = s.inputEnded := rfl
@[simp] theorem setStatus_diag (st : RunStatus) : (s.setStatus st).diag = s.diag := rfl
@[simp] theorem setStatus_draws (st : RunStatus) : (s.setStatus st).draws = s.draws := rfl

@[simp] theorem setCell_regs (a : Nat) (v : Word) : (s.setCell a v).regs = s.regs := rfl
@[simp] theorem setCell_mem (a : Nat) (v : Word) : (s.setCell a v).mem = s.mem.write a v := rfl
@[simp] theorem setCell_accessed (a : Nat) (v : Word) : (s.setCell a v).accessed = s.accessed := rfl
@[simp] theorem setCell_z (a : Nat) (v : Word) : (s.setCell a v).z = s.z := rfl
@[simp] theorem setCell_c (a : Nat) (v : Word) : (s.setCell a v).c = s.c := rfl
@[simp] theorem setCell_nextPc (a : Nat) (v : Word) : (s.setCell a v).nextPc = s.nextPc := rfl
@[simp] theorem setCell_status (a : Nat) (v : Word) : (s.setCell a v).status = s.status := rfl
@[simp] theorem setCell_breakpoints (a : Nat) (v : Word) : (s.setCell a v).breakpoints = s.breakpoints := rfl
@[simp] theorem setCell_input (a : Nat) (v : Word) : (s.setCell a v).input = s.input := rfl
@[simp] theorem setCell_inputEnded (a : Nat) (v : Word) : (s.setCell a v).inputEnded = s.inputEnded := rfl
@[simp] theorem setCell_diag (a : Nat) (v : Word) : (s.setCell a v).diag = s.diag := rfl
@[simp] theorem setCell_draws (a : Nat) (v : Word) : (s.setCell a v).draws = s.draws := rfl

@[simp] theorem markAccessed_regs (a : Nat) : (s.markAccessed a).regs = s.regs := rfl
@[simp] theorem markAccessed_mem (a : Nat) : (s.markAccessed a).mem = s.mem := rfl
@[simp] theorem markAccessed_accessed (a : Nat) : (s.markAccessed a).accessed = s.accessed.add a := rfl
@[simp] theorem markAccessed_z (a : Nat) : (s.markAccessed a).z = s.z := rfl
@[simp] theorem markAccessed_c (a : Nat) : (s.markAccessed a).c = s.c := rfl
@[simp] theorem markAccessed_nextPc (a : Nat) : (s.markAccessed a).nextPc = s.nextPc := rfl
@[simp] theorem markAccessed_status (a : Nat) : (s.markAccessed a).status = s.status := rfl
@[simp] theorem markAccessed_breakpoints (a : Nat) : (s.markAccessed a).breakpoints = s.breakpoints := rfl
@[simp] theorem markAccessed_input (a : Nat) : (s.markAccessed a).input = s.input := rfl
@[simp] theorem markAccessed_inputEnded (a : Nat) : (s.markAccessed a).inputEnded = s.inputEnded := rfl
@[simp] theorem markAccessed_diag (a : Nat) : (s.markAccessed a).diag = s.diag := rfl
@[simp] theorem markAccessed_draws (a : Nat) : (s.markAccessed a).draws = s.draws := rfl

@[simp] theorem emit_regs (e : Event) : (s.emit e).regs = s.regs := rfl
@[simp] theorem emit_mem (e : Event) : (s.emit e).mem = s.mem := rfl
@[simp] theorem emit_accessed (e : Event) : (s.emit e).accessed = s.accessed := rfl
@[simp] theorem emit_z (e : Event) : (s.emit e).z = s.z := rfl
@[simp] theorem emit_c (e : Event) : (s.emit e).c = s.c := rfl
@[simp] theorem emit_nextPc (e : Event) : (s.emit e).nextPc = s.nextPc := rfl
@[simp] theorem emit_status (e : Event) : (s.emit e).status = s.status := rfl
@[simp] theorem emit_breakpoints (e : Event) : (s.emit e).breakpoints = s.breakpoints := rfl
@[simp] theorem emit_input (e : Event) : (s.emit e).input = s.input := rfl
@[simp] theorem emit_inputEnded (e : Event) : (s.emit e).inputEnded = s.inputEnded := rfl
@[simp] theorem emit_diag (e : Event) : (s.emit e).diag = s.diag ++ [e] := rfl
@[simp] theorem emit_draws (e : Event) : (s.emit e).draws = s.draws := rfl

@[simp] theorem setInput_regs (rest : List InputItem) : (s.setInput rest).regs = s.regs := rfl
@[simp] theorem setInput_mem (rest : List InputItem) : (s.setInput rest).mem = s.mem := rfl
@[simp] theorem setInput_accessed (rest : List InputItem) : (s.setInput rest).accessed = s.accessed := rfl
@[simp] theorem setInput_z (rest : List InputItem) : (s.setInput rest).z = s.z := rfl
@[simp] theorem setInput_c (rest : List InputItem) : (s.setInput rest).c = s.c := rfl
@[simp] theorem setInput_nextPc (rest : List InputItem) : (s.setInput rest).nextPc = s.nextPc := rfl
@[simp] theorem setInput_status (rest : List InputItem) : (s.setInput rest).status = s.status := rfl
@[simp] theorem setInput_breakpoints (rest : List InputItem) : (s.setInput rest).breakpoints = s.breakpoints := rfl
@[simp] theorem setInput_input (rest : List InputItem) : (s.setInput rest).input = rest := rfl
@[simp] theorem setInput_inputEnded (rest : List InputItem) : (s.setInput rest).inputEnded = s.inputEnded := rfl
@[simp] theorem setInput_diag (rest : List InputItem) : (s.setInput rest).diag = s.diag := rfl
@[simp] theorem setInput_draws (rest : List InputItem) : (s.setInput rest).draws = s.draws := rfl

@[simp] theorem countDraw_regs : s.countDraw.regs = s.regs := rfl
@[simp] theorem countDraw_mem : s.countDraw.mem = s.mem := rfl
@[simp] theorem countDraw_accessed : s.countDraw.accessed = s.accessed := rfl
@[simp] theorem countDraw_z : s.countDraw.z = s.z := rfl
@[simp] theorem countDraw_c : s.countDraw.c = s.c := rfl
@[simp] theorem countDraw_nextPc : s.countDraw.nextPc = s.nextPc := rfl
@[simp] theorem countDraw_status : s.countDraw.status = s.status := rfl
@[simp] theorem countDraw_breakpoints : s.countDraw.breakpoints = s.breakpoints := rfl
@[simp] theorem countDraw_input : s.countDraw.input = s.input := rfl
@[simp] theorem countDraw_inputEnded : s.countDraw.inputEnded = s.inputEnded := rfl
@[simp] theorem countDraw_diag : s.countDraw.diag = s.diag := rfl
@[simp] theorem countDraw_draws : s.countDraw.draws = s.draws + 1 := rfl

/-! ### The register file -/

@[simp] theorem reg_setFlags (zf cf : Bool) (i : Reg) : (s.setFlags zf cf).reg i = s.reg i := rfl
@[simp] theorem pc_setFlags (zf cf : Bool) : (s.setFlags zf cf).pc = s.pc := rfl
@[simp] theorem sp_setFlags (zf cf : Bool) : (s.setFlags zf cf).sp = s.sp := rfl
@[simp] theorem cell_setFlags (zf cf : Bool) (i : Nat) : (s.setFlags zf cf).cell i = s.cell i := rfl
@[simp] theorem reg_stagePc (v : Word) (i : Reg) : (s.stagePc v).reg i = s.reg i := rfl
@[simp] theorem pc_stagePc (v : Word) : (s.stagePc v).pc = s.pc := rfl
@[simp] theorem sp_stagePc (v : Word) : (s.stagePc v).sp = s.sp := rfl
@[simp] theorem cell_stagePc (v : Word) (i : Nat) : (s.stagePc v).cell i = s.cell i := rfl
@[simp] theorem reg_setStatus (st : RunStatus) (i : Reg) : (s.setStatus st).reg i = s.reg i := rfl
@[simp] theorem pc_setStatus (st : RunStatus) : (s.setStatus st).pc = s.pc := rfl
@[simp] theorem sp_setStatus (st : RunStatus) : (s.setStatus st).sp = s.sp := rfl
@[simp] theorem cell_setStatus (st : RunStatus) (i : Nat) : (s.setStatus st).cell i = s.cell i := rfl
@[simp] theorem reg_setCell (a : Nat) (v : Word) (i : Reg) : (s.setCell a v).reg i = s.reg i := rfl
@[simp] theorem pc_setCell (a : Nat) (v : Word) : (s.setCell a v).pc = s.pc := rfl
@[simp] theorem sp_setCell (a : Nat) (v : Word) : (s.setCell a v).sp = s.sp := rfl
@[simp] theorem reg_markAccessed (a : Nat) (i : Reg) : (s.markAccessed a).reg i = s.reg i := rfl
@[simp] theorem pc_markAccessed (a : Nat) : (s.markAccessed a).pc = s.pc := rfl
@[simp] theorem sp_markAccessed (a : Nat) : (s.markAccessed a).sp = s.sp := rfl
@[simp] theorem cell_markAccessed (a : Nat) (i : Nat) : (s.markAccessed a).cell i = s.cell i := rfl
@[simp] theorem reg_emit (e : Event) (i : Reg) : (s.emit e).reg i = s.reg i := rfl
@[simp] theorem pc_emit (e : Event) : (s.emit e).pc = s.pc := rfl
@[simp] theorem sp_emit (e : Event) : (s.emit e).sp = s.sp := rfl
@[simp] theorem cell_emit (e : Event) (i : Nat) : (s.emit e).cell i = s.cell i := rfl
@[simp] theorem reg_setInput (rest : List InputItem) (i : Reg) : (s.setInput rest).reg i = s.reg i := rfl
@[simp] theorem pc_setInput (rest : List InputItem) : (s.setInput rest).pc = s.pc := rfl
@[simp] theorem sp_setInput (rest : List InputItem) : (s.setInput rest).sp = s.sp := rfl
@[simp] theorem cell_setInput (rest : List InputItem) (i : Nat) : (s.setInput rest).cell i = s.cell i := rfl
@[simp] theorem reg_countDraw (i : Reg) : s.countDraw.reg i = s.reg i := rfl
@[simp] theorem pc_countDraw : s.countDraw.pc = s.pc := rfl
@[simp] theorem sp_countDraw : s.countDraw.sp = s.sp := rfl
@[simp] theorem cell_countDraw (i : Nat) : s.countDraw.cell i = s.cell i := rfl
@[simp] theorem cell_setReg (r : Reg) (v : Word) (i : Nat) : (s.setReg r v).cell i = s.cell i := rfl

/-- Reading a register after a register write (R22). -/
theorem reg_setReg (r i : Reg) (v : Word) : (s.setReg r v).reg i = if r = i then v else s.reg i := by
  simp [State.reg, State.setReg, Vector.getElem_set, Fin.ext_iff]

@[simp] theorem reg_setReg_same (r : Reg) (v : Word) : (s.setReg r v).reg r = v := by
  simp [reg_setReg]

@[simp] theorem reg_setReg_of_ne {r i : Reg} (h : r ≠ i) (v : Word) : (s.setReg r v).reg i = s.reg i := by
  simp [reg_setReg, h]

/-- A second write of the same register is the one that counts (R28). -/
@[simp] theorem setReg_setReg (r : Reg) (v w : Word) : (s.setReg r v).setReg r w = s.setReg r w := by
  simp [State.setReg]

@[simp] theorem pc_setReg_pcReg (v : Word) : (s.setReg pcReg v).pc = v := reg_setReg_same s pcReg v

@[simp] theorem sp_setReg_spReg (v : Word) : (s.setReg spReg v).sp = v := reg_setReg_same s spReg v

/-- The value of a register is a value of the register file. -/
theorem reg_eq_getElem (i : Reg) : s.reg i = s.regs[i] := rfl

/-- Two states with the same registers read one by one have the same register file. -/
theorem regs_ext {s t : State} (h : ∀ i, s.reg i = t.reg i) : s.regs = t.regs := by
  apply Vector.ext
  intro i hi
  exact h ⟨i, hi⟩

end Sys2Proof.Machine
end

