-- ==== Sys2Proof/Laws/Ops.lean ====
section
/-! SUPPORT. For each shared operation, once, everything it can do. -/

namespace Sys2Proof.Machine

variable (s : State)

theorem memWords_eq : memWords = 8192 := rfl

@[simp] theorem cell_setCell (a b : Nat) (v : Word) :
    (s.setCell a v).cell b = if a = b then v else s.cell b := read_write s.mem a b v

theorem fetchWord_eq : s.fetchWord = s.cell s.pc.toNat := rfl

/-! ### The ports -/

/-- An input port that has an item answers with it. -/
theorem charIn_item {item : InputItem} {rest : List InputItem} (h : s.input = item :: rest) :
    s.charIn = some (item.code.setWidth 16, (s.setInput rest).emit (.inChar (item.code.setWidth 16))) := by
  simp [State.charIn, h, State.answerChar]

theorem intIn_item {item : InputItem} {rest : List InputItem} (h : s.input = item :: rest) :
    s.intIn = some (BitVec.ofInt 16 (item.number.getD 0), (s.setInput rest).emit (.inInt (item.number.getD 0))) := by
  simp [State.intIn, h, State.answerInt]

/-- With nothing available and the stream not ended, both input ports hold the read. -/
theorem charIn_waits (h : s.input = []) (he : s.inputEnded = false) : s.charIn = none := by
  simp [State.charIn, h, he]

theorem intIn_waits (h : s.input = []) (he : s.inputEnded = false) : s.intIn = none := by
  simp [State.intIn, h, he]

/-- Everything an answered read of the character port changes: the input, by at most its next item, the draws, one
echo. -/
theorem charIn_some {v : Word} {t : State} (h : s.charIn = some (v, t)) :
    ∃ inp n, t = { s with input := inp, draws := n, diag := s.diag ++ [.inChar v] } ∧
      (inp = s.input ∨ ∃ item, s.input = item :: inp) := by
  unfold State.charIn State.answerChar at h
  split at h
  · rename_i item rest hi
    simp only [Option.some.injEq, Prod.mk.injEq] at h
    obtain ⟨rfl, rfl⟩ := h
    exact ⟨rest, _, rfl, Or.inr ⟨item, hi⟩⟩
  · split at h
    · simp only [Option.map_eq_some_iff, Prod.mk.injEq] at h
      obtain ⟨w, -, rfl, rfl⟩ := h
      exact ⟨_, _, rfl, Or.inl rfl⟩
    · simp at h

/-- Everything an answered read of the integer port changes: the input, by at most its next item, the draws, one
echo. -/
theorem intIn_some {v : Word} {t : State} (h : s.intIn = some (v, t)) :
    ∃ inp n k, t = { s with input := inp, draws := n, diag := s.diag ++ [.inInt k] } ∧
      (inp = s.input ∨ ∃ item, s.input = item :: inp) := by
  unfold State.intIn State.answerInt at h
  split at h
  · rename_i item rest hi
    simp only [Option.some.injEq, Prod.mk.injEq] at h
    obtain ⟨rfl, rfl⟩ := h
    exact ⟨rest, _, _, rfl, Or.inr ⟨item, hi⟩⟩
  · split at h
    · simp only [Option.map_eq_some_iff, Prod.mk.injEq] at h
      obtain ⟨w, -, rfl, rfl⟩ := h
      exact ⟨_, _, _, rfl, Or.inl rfl⟩
    · simp at h

/-! ### The router -/

/-- The router's read inside memory. -/
theorem memRead_memory {a : Word} (h : a.toNat < memWords) :
    s.memRead a = some (s.cell a.toNat, s.markAccessed a.toNat) := by
  have h1 : a ≠ ioCharIn := by rintro rfl; revert h; decide
  have h2 : a ≠ ioIntIn := by rintro rfl; revert h; decide
  simp [State.memRead, h1, h2, h]

/-- The router's read of an address that is neither memory nor an input port. -/
theorem memRead_elsewhere {a : Word} (h : ¬ a.toNat < memWords) (h1 : a ≠ ioCharIn) (h2 : a ≠ ioIntIn) :
    s.memRead a = some (0, s) := by
  simp [State.memRead, h1, h2, h]

@[simp] theorem memRead_charIn : s.memRead ioCharIn = s.charIn := by simp [State.memRead]

@[simp] theorem memRead_intIn : s.memRead ioIntIn = s.intIn := by
  have h : ioIntIn ≠ ioCharIn := by decide
  simp [State.memRead, h]

/-- Everything an answered router read changes: `accessed` at the address if it is in memory, or, for an input port, the
input, by at most its next item, the draws and one echo. Memory, registers, flags, status and the breakpoint set stay. -/
theorem memRead_some {a v : Word} {t : State} (h : s.memRead a = some (v, t)) :
    ∃ inp n acc es, t = { s with input := inp, draws := n, accessed := acc, diag := s.diag ++ es } ∧
      (acc = s.accessed ∨ (a.toNat < memWords ∧ acc = s.accessed.add a.toNat)) ∧
      (∀ e ∈ es, e.isDump = false) ∧ (inp = s.input ∨ ∃ item, s.input = item :: inp) := by
  unfold State.memRead at h
  split at h
  · obtain ⟨inp, n, rfl, hi⟩ := charIn_some s h
    exact ⟨inp, n, s.accessed, _, rfl, Or.inl rfl, by simp [Event.isDump], hi⟩
  split at h
  · obtain ⟨inp, n, k, rfl, hi⟩ := intIn_some s h
    exact ⟨inp, n, s.accessed, _, rfl, Or.inl rfl, by simp [Event.isDump], hi⟩
  split at h
  · rename_i hlt
    simp only [Option.some.injEq, Prod.mk.injEq] at h
    obtain ⟨-, rfl⟩ := h
    exact ⟨s.input, s.draws, _, [], by simp [State.markAccessed], Or.inr ⟨hlt, rfl⟩, by simp, Or.inl rfl⟩
  · simp only [Option.some.injEq, Prod.mk.injEq] at h
    obtain ⟨-, rfl⟩ := h
    exact ⟨s.input, s.draws, s.accessed, [], by simp, Or.inl rfl, by simp, Or.inl rfl⟩

/-- Everything a router write changes: the cell and its `accessed` bit if the address is in memory, or one output event,
or nothing. -/
theorem memWrite_cases (a v : Word) :
    (a.toNat < memWords ∧ s.memWrite a v = (s.markAccessed a.toNat).setCell a.toNat v) ∨
    (¬ a.toNat < memWords ∧ ∃ es, s.memWrite a v = { s with diag := s.diag ++ es } ∧ ∀ e ∈ es, e.isDump = false) := by
  unfold State.memWrite
  split
  · rename_i h
    subst h
    exact Or.inr ⟨by decide, [.outChar (v.extractLsb' 0 8)], rfl, by simp [Event.isDump]⟩
  split
  · rename_i h
    subst h
    exact Or.inr ⟨by decide, [.outInt v.toInt], rfl, by simp [Event.isDump]⟩
  split
  · rename_i h
    exact Or.inl ⟨h, rfl⟩
  · rename_i h
    exact Or.inr ⟨h, [], by simp, by simp⟩

/-- The router's write inside memory. -/
theorem memWrite_memory {a : Word} (h : a.toNat < memWords) (v : Word) :
    s.memWrite a v = (s.markAccessed a.toNat).setCell a.toNat v := by
  rcases memWrite_cases s a v with ⟨-, h'⟩ | ⟨h', -⟩
  · exact h'
  · exact absurd h h'

/-! ### The stack -/

/-- A stack access marks nothing (D6). -/
@[simp] theorem markStack_eq (a : Nat) : s.markStack a = s := by simp [State.markStack, stackMarksAccessed]

@[simp] theorem stackTouch_eq (a : Word) : s.stackTouch a = s := by simp [State.stackTouch]

/-- Everything a stack write changes: the cell, if the address is in memory. -/
theorem stackWrite_cases (a v : Word) :
    (a.toNat < memWords ∧ s.stackWrite a v = s.setCell a.toNat v) ∨
    (¬ a.toNat < memWords ∧ s.stackWrite a v = s) := by
  by_cases h : a.toNat < memWords
  · exact Or.inl ⟨h, by simp [State.stackWrite, h]⟩
  · exact Or.inr ⟨h, by simp [State.stackWrite, h]⟩

/-! ### The cycle -/

@[simp] theorem pc_advance : s.advance.pc = BitVec.ofNat 16 (s.pc.toNat + 1) := by
  simp [State.advance]

@[simp] theorem nextPc_advance : s.advance.nextPc = BitVec.ofNat 16 (s.pc.toNat + 1) := rfl

theorem reg_advance {r : Reg} (h : r ≠ pcReg) : s.advance.reg r = s.reg r := by
  simp [State.advance, reg_setReg_of_ne _ h.symm]

@[simp] theorem mem_advance : s.advance.mem = s.mem := rfl
@[simp] theorem accessed_advance : s.advance.accessed = s.accessed := rfl
@[simp] theorem z_advance : s.advance.z = s.z := rfl
@[simp] theorem c_advance : s.advance.c = s.c := rfl
@[simp] theorem status_advance : s.advance.status = s.status := rfl
@[simp] theorem breakpoints_advance : s.advance.breakpoints = s.breakpoints := rfl
@[simp] theorem input_advance : s.advance.input = s.input := rfl
@[simp] theorem inputEnded_advance : s.advance.inputEnded = s.inputEnded := rfl
@[simp] theorem diag_advance : s.advance.diag = s.diag := rfl
@[simp] theorem draws_advance : s.advance.draws = s.draws := rfl

@[simp] theorem pc_commit : s.commit.pc = s.nextPc := by simp [State.commit]

theorem reg_commit {r : Reg} (h : r ≠ pcReg) : s.commit.reg r = s.reg r := by
  simp [State.commit, reg_setReg_of_ne _ h.symm]

@[simp] theorem mem_commit : s.commit.mem = s.mem := rfl
@[simp] theorem accessed_commit : s.commit.accessed = s.accessed := rfl
@[simp] theorem z_commit : s.commit.z = s.z := rfl
@[simp] theorem c_commit : s.commit.c = s.c := rfl
@[simp] theorem nextPc_commit : s.commit.nextPc = s.nextPc := rfl
@[simp] theorem status_commit : s.commit.status = s.status := rfl
@[simp] theorem breakpoints_commit : s.commit.breakpoints = s.breakpoints := rfl
@[simp] theorem input_commit : s.commit.input = s.input := rfl
@[simp] theorem inputEnded_commit : s.commit.inputEnded = s.inputEnded := rfl
@[simp] theorem diag_commit : s.commit.diag = s.diag := rfl
@[simp] theorem draws_commit : s.commit.draws = s.draws := rfl

/-- The debug hook changes the diagnostic stream alone: one dump, or nothing (R194, R200). -/
theorem debugHook_eq (a : Nat) :
    s.debugHook a = { s with diag := s.diag ++ if s.dumpsAfter a then [.dump s.dumpOf] else [] } := by
  unfold State.debugHook
  split <;> simp [State.emit]

@[simp] theorem regs_debugHook (a : Nat) : (s.debugHook a).regs = s.regs := by simp [debugHook_eq]
@[simp] theorem reg_debugHook (a : Nat) (r : Reg) : (s.debugHook a).reg r = s.reg r := by simp [debugHook_eq, State.reg]
@[simp] theorem pc_debugHook (a : Nat) : (s.debugHook a).pc = s.pc := reg_debugHook s a pcReg
@[simp] theorem sp_debugHook (a : Nat) : (s.debugHook a).sp = s.sp := reg_debugHook s a spReg
@[simp] theorem mem_debugHook (a : Nat) : (s.debugHook a).mem = s.mem := by simp [debugHook_eq]
@[simp] theorem cell_debugHook (a b : Nat) : (s.debugHook a).cell b = s.cell b := by simp [State.cell]
@[simp] theorem accessed_debugHook (a : Nat) : (s.debugHook a).accessed = s.accessed := by simp [debugHook_eq]
@[simp] theorem z_debugHook (a : Nat) : (s.debugHook a).z = s.z := by simp [debugHook_eq]
@[simp] theorem c_debugHook (a : Nat) : (s.debugHook a).c = s.c := by simp [debugHook_eq]
@[simp] theorem nextPc_debugHook (a : Nat) : (s.debugHook a).nextPc = s.nextPc := by simp [debugHook_eq]
@[simp] theorem status_debugHook (a : Nat) : (s.debugHook a).status = s.status := by simp [debugHook_eq]
@[simp] theorem breakpoints_debugHook (a : Nat) : (s.debugHook a).breakpoints = s.breakpoints := by simp [debugHook_eq]
@[simp] theorem input_debugHook (a : Nat) : (s.debugHook a).input = s.input := by simp [debugHook_eq]
@[simp] theorem inputEnded_debugHook (a : Nat) : (s.debugHook a).inputEnded = s.inputEnded := by simp [debugHook_eq]
@[simp] theorem draws_debugHook (a : Nat) : (s.debugHook a).draws = s.draws := by simp [debugHook_eq]

/-! ### The load -/

@[simp] theorem load_nil : s.load [] = s := rfl

@[simp] theorem load_cons (p : Nat × Nat) (image : List (Nat × Nat)) : s.load (p :: image) = (s.loadPair p).load image :=
  rfl

@[simp] theorem load_append (image image' : List (Nat × Nat)) : s.load (image ++ image') = (s.load image).load image' :=
  List.foldl_append ..

/-- One pair writes its cell, if it is in memory, and no other. -/
theorem cell_loadPair (p : Nat × Nat) (b : Nat) :
    (s.loadPair p).cell b = if p.1 = b ∧ b < memWords then BitVec.ofNat 16 p.2 else s.cell b := by
  obtain ⟨a, v⟩ := p
  by_cases h : a < memWords
  · rw [State.loadPair, if_pos h, cell_setCell]
    exact if_congr ⟨fun e => ⟨e, e ▸ h⟩, And.left⟩ rfl rfl
  · rw [State.loadPair, if_neg h, if_neg fun (e : a = b ∧ b < memWords) => h (e.1 ▸ e.2)]

end Sys2Proof.Machine
end

