-- ==== Sys2Proof/Laws/Exec.lean ====
section
/-! SUPPORT. What `exec` can do, said once: every instruction answers a next state, and the parts of the state it may
change. -/

namespace Sys2Proof.Machine

/-- Everything an instruction leaves alone whatever it is, and the ways it may change memory, `accessed`, the status, the
input and the diagnostic stream (R5, R35, R38, R66, R114). -/
structure HandlerFrame (s t : State) : Prop where
  breakpoints : t.breakpoints = s.breakpoints
  inputEnded  : t.inputEnded = s.inputEnded
  mem         : t.mem = s.mem ∨ ∃ a v, a < memWords ∧ t.mem = s.mem.write a v
  accessed    : t.accessed = s.accessed ∨ ∃ a, a < memWords ∧ t.accessed = s.accessed.add a
  status      : t.status = s.status ∨ t.status = .halted
  input       : t.input = s.input ∨ ∃ item, s.input = item :: t.input
  diag        : ∃ es, t.diag = s.diag ++ es ∧ ∀ e ∈ es, e.isDump = false

/-- A change of registers, flags and `next_pc` only. -/
theorem HandlerFrame.ofPlain {s t : State} (hb : t.breakpoints = s.breakpoints) (he : t.inputEnded = s.inputEnded)
    (hm : t.mem = s.mem) (ha : t.accessed = s.accessed) (hs : t.status = s.status) (hi : t.input = s.input)
    (hd : t.diag = s.diag) : HandlerFrame s t :=
  ⟨hb, he, Or.inl hm, Or.inl ha, Or.inl hs, Or.inl hi, [], by simp [hd], by simp⟩

theorem execHalt_frame (s : State) : ∃ t, execHalt s = .next t ∧ HandlerFrame s t := by
  refine ⟨_, rfl, ?_⟩
  split <;> exact ⟨rfl, rfl, Or.inl rfl, Or.inl rfl, Or.inr rfl, Or.inl rfl, [], by simp, by simp⟩

theorem jumpIf_frame (s : State) (taken : Bool) {n : Nat} (off : BitVec n) : HandlerFrame s (s.jumpIf taken off) := by
  unfold State.jumpIf
  split <;> exact .ofPlain rfl rfl rfl rfl rfl rfl rfl

theorem memWrite_frame (s : State) (a v : Word) : HandlerFrame s (s.memWrite a v) := by
  rcases memWrite_cases s a v with ⟨h, h'⟩ | ⟨-, es, h', hes⟩
  · rw [h']
    exact ⟨rfl, rfl, Or.inr ⟨_, _, h, rfl⟩, Or.inr ⟨_, h, rfl⟩, Or.inl rfl, Or.inl rfl, [], by simp, by simp⟩
  · rw [h']
    exact ⟨rfl, rfl, Or.inl rfl, Or.inl rfl, Or.inl rfl, Or.inl rfl, es, rfl, hes⟩

theorem execLdr_frame (rd rm : Reg) (imm : BitVec 4) (s : State) :
    ∃ t, execLdr rd rm imm s = .next t ∧ HandlerFrame s t := by
  unfold execLdr
  split
  · rename_i v t h
    obtain ⟨inp, n, acc, es, rfl, hacc, hes, hi⟩ := memRead_some s h
    refine ⟨_, rfl, rfl, rfl, Or.inl rfl, ?_, Or.inl rfl, hi, es, rfl, hes⟩
    rcases hacc with rfl | ⟨hlt, rfl⟩
    · exact Or.inl rfl
    · exact Or.inr ⟨_, hlt, rfl⟩
  · exact ⟨s, rfl, .ofPlain rfl rfl rfl rfl rfl rfl rfl⟩

theorem execPush_frame (ign : BitVec 8) (rn : Reg) (s : State) :
    ∃ t, execPush ign rn s = .next t ∧ HandlerFrame s t := by
  refine ⟨_, rfl, ?_⟩
  rcases stackWrite_cases (s.setReg spReg s.pushedSp) (s.setReg spReg s.pushedSp).sp
    ((s.setReg spReg s.pushedSp).reg rn) with ⟨h, h'⟩ | ⟨-, h'⟩
  · rw [h']
    exact ⟨rfl, rfl, Or.inr ⟨_, _, h, rfl⟩, Or.inl rfl, Or.inl rfl, Or.inl rfl, [], by simp, by simp⟩
  · rw [h']
    exact .ofPlain rfl rfl rfl rfl rfl rfl rfl

theorem execPop_frame (rd : Reg) (ign : BitVec 8) (s : State) :
    ∃ t, execPop rd ign s = .next t ∧ HandlerFrame s t := by
  refine ⟨_, rfl, ?_⟩
  split <;> exact .ofPlain (by simp) (by simp) (by simp) (by simp) (by simp) (by simp) (by simp)

/-- Every instruction completes with a next state, in every state, and keeps its frame (R114, R120). -/
theorem exec_next (i : Instr) (s : State) : ∃ t, exec i s = .next t ∧ HandlerFrame s t := by
  cases i with
  | halt => exact execHalt_frame s
  | jmp off => exact ⟨_, rfl, jumpIf_frame s _ off⟩
  | jeq off => exact ⟨_, rfl, jumpIf_frame s _ off⟩
  | jne off => exact ⟨_, rfl, jumpIf_frame s _ off⟩
  | jlt off => exact ⟨_, rfl, jumpIf_frame s _ off⟩
  | jge off => exact ⟨_, rfl, jumpIf_frame s _ off⟩
  | ldr rd rm imm => exact execLdr_frame rd rm imm s
  | str imm rm rn => exact ⟨_, rfl, memWrite_frame s _ _⟩
  | mov rd imm => exact ⟨_, rfl, .ofPlain rfl rfl rfl rfl rfl rfl rfl⟩
  | add rd rm rn => exact ⟨_, rfl, .ofPlain rfl rfl rfl rfl rfl rfl rfl⟩
  | addi rd rm imm => exact ⟨_, rfl, .ofPlain rfl rfl rfl rfl rfl rfl rfl⟩
  | sub rd rm rn => exact ⟨_, rfl, .ofPlain rfl rfl rfl rfl rfl rfl rfl⟩
  | subi rd rm imm => exact ⟨_, rfl, .ofPlain rfl rfl rfl rfl rfl rfl rfl⟩
  | and rd rm rn => exact ⟨_, rfl, .ofPlain rfl rfl rfl rfl rfl rfl rfl⟩
  | or rd rm rn => exact ⟨_, rfl, .ofPlain rfl rfl rfl rfl rfl rfl rfl⟩
  | shr rd rm imm => exact ⟨_, rfl, .ofPlain rfl rfl rfl rfl rfl rfl rfl⟩
  | shl rd rm imm => exact ⟨_, rfl, .ofPlain rfl rfl rfl rfl rfl rfl rfl⟩
  | cmp ign rm rn => exact ⟨_, rfl, .ofPlain rfl rfl rfl rfl rfl rfl rfl⟩
  | push ign rn => exact execPush_frame ign rn s
  | pop rd ign => exact execPop_frame rd ign s

/-- What a step can do, once: a completed cycle, a held input read, a halted machine's same state, an overrun, or an
aborted machine's fault again (R119, R201). -/
theorem step_cases (s : State) :
    (s.ready ∧ ∃ t, exec (decode s.fetchWord) s.advance = .next t ∧ HandlerFrame s.advance t ∧
      step s = .next (t.commit.debugHook s.pc.toNat)) ∨
    (s.status = .running ∧ s.pc.toNat < memWords ∧ heldAt (decode s.fetchWord) s.advance = true ∧ step s = .next s) ∨
    (s.status = .halted ∧ step s = .next s) ∨
    (s.status = .running ∧ ¬ s.pc.toNat < memWords ∧ step s = .fault s.overrun) ∨
    (s.status = .aborted ∧ step s = .fault (.pcOutOfBounds s.pc s)) := by
  cases hs : s.status with
  | halted => simp [step, cycle, hs]
  | aborted => simp [step, cycle, hs]
  | running =>
    by_cases hpc : s.pc.toNat < memWords
    · cases hh : heldAt (decode s.fetchWord) s.advance with
      | true =>
        refine Or.inr (Or.inl ⟨rfl, hpc, rfl, ?_⟩)
        simp only [step, cycle, hs, runCycle, hpc, hh, if_true]
      | false =>
        obtain ⟨t, ht, hf⟩ := exec_next (decode s.fetchWord) s.advance
        refine Or.inl ⟨⟨hs, hpc, hh⟩, t, ht, hf, ?_⟩
        simp only [step, cycle, hs, runCycle, hpc, hh, if_true, ht, finish, Bool.false_eq_true, if_false]
    · refine Or.inr (Or.inr (Or.inr (Or.inl ⟨rfl, hpc, ?_⟩)))
      simp only [step, cycle, hs, runCycle, hpc, if_false]

end Sys2Proof.Machine
end

