-- ==== Sys2Proof/Laws/PerInstr.lean ====
section
/-! SUPPORT. One lemma per constructor of `Instr`, for the family `TableRow`: the word of an instruction has the fixed
bits of its row of spec/opcode_table.json. -/

namespace Sys2Proof.Laws

/-- The row's `mask` in spec/opcode_table.json. -/
def rowMask : Instr → Word
  | .halt => 0xFFFF
  | .jeq _ | .jne _ | .jlt _ | .jge _ => 0xC00F
  | .jmp _ | .ldr _ _ _ | .str _ _ _ | .mov _ _ | .add _ _ _ | .addi _ _ _ | .sub _ _ _ | .subi _ _ _
  | .and _ _ _ | .or _ _ _ | .shr _ _ _ | .shl _ _ _ | .cmp _ _ _ | .push _ _ | .pop _ _ => 0x000F

/-- The row's `match` in spec/opcode_table.json. -/
def rowMatch : Instr → Word
  | .halt => 0xFFFF
  | .jmp _ => 0x0000
  | .jeq _ => 0x0001
  | .jne _ => 0x4001
  | .jlt _ => 0x8001
  | .jge _ => 0xC001
  | .ldr _ _ _ => 0x0002
  | .str _ _ _ => 0x0003
  | .mov _ _ => 0x0004
  | .add _ _ _ => 0x0005
  | .addi _ _ _ => 0x0006
  | .sub _ _ _ => 0x0007
  | .subi _ _ _ => 0x0008
  | .and _ _ _ => 0x0009
  | .or _ _ _ => 0x000A
  | .shr _ _ _ => 0x000B
  | .shl _ _ _ => 0x000C
  | .cmp _ _ _ => 0x000D
  | .push _ _ => 0x000E
  | .pop _ _ => 0x000F

/-- A word masked to its low nibble is its opcode. -/
theorem and_low_nibble (w : Word) : w &&& 0x000F#16 = (opcodeOf w).setWidth 16 := by
  apply BitVec.eq_of_toNat_eq
  have : (w &&& 0x000F#16).toNat = w.toNat &&& (2 ^ 4 - 1) := by simp
  rw [this, Nat.and_two_pow_sub_one_eq_mod]
  simp [opcodeOf, BitVec.extractLsb'_toNat]
  omega

/-- A word of format B masked to its condition code and opcode, by its value. -/
theorem and_cond_mask (cc : BitVec 2) (off : BitVec 10) :
    packCond cc off 1 &&& 0xC00F#16 = cc.setWidth 16 <<< 14 ||| 1#16 := by
  apply BitVec.eq_of_getElem_eq
  intro i hi
  have hl : (packCond cc off 1)[i] = if i < 4 then (1#4 : BitVec 4).getLsbD i
      else if i - 4 < 10 then off.getLsbD (i - 4) else cc.getLsbD (i - 4 - 10) := by
    show (cc ++ off ++ 1#4).getLsbD i = _
    rw [BitVec.getLsbD_append, BitVec.getLsbD_append]
  rw [BitVec.getElem_and, hl]
  interval_cases i <;> simp

namespace TableRow

/-- The fixed bits of the row stand in the word. -/
def Statement (i : Instr) : Prop := encode i &&& rowMask i = rowMatch i

theorem halt : Statement .halt := by unfold Statement; decide
theorem jmp (off12 : BitVec 12) : Statement (.jmp off12) := by
  simp [Statement, encode, rowMask, rowMatch, and_low_nibble]
theorem jeq (off10 : BitVec 10) : Statement (.jeq off10) := by
  exact and_cond_mask 0 off10
theorem jne (off10 : BitVec 10) : Statement (.jne off10) := by
  exact and_cond_mask 1 off10
theorem jlt (off10 : BitVec 10) : Statement (.jlt off10) := by
  exact and_cond_mask 2 off10
theorem jge (off10 : BitVec 10) : Statement (.jge off10) := by
  exact and_cond_mask 3 off10
theorem ldr (rd rm : Reg) (imm4 : BitVec 4) : Statement (.ldr rd rm imm4) := by
  simp [Statement, encode, rowMask, rowMatch, and_low_nibble]
theorem str (imm4hi : BitVec 4) (rm rn : Reg) : Statement (.str imm4hi rm rn) := by
  simp [Statement, encode, rowMask, rowMatch, and_low_nibble]
theorem mov (rd : Reg) (imm8 : BitVec 8) : Statement (.mov rd imm8) := by
  simp [Statement, encode, rowMask, rowMatch, and_low_nibble]
theorem add (rd rm rn : Reg) : Statement (.add rd rm rn) := by
  simp [Statement, encode, rowMask, rowMatch, and_low_nibble]
theorem addi (rd rm : Reg) (imm4 : BitVec 4) : Statement (.addi rd rm imm4) := by
  simp [Statement, encode, rowMask, rowMatch, and_low_nibble]
theorem sub (rd rm rn : Reg) : Statement (.sub rd rm rn) := by
  simp [Statement, encode, rowMask, rowMatch, and_low_nibble]
theorem subi (rd rm : Reg) (imm4 : BitVec 4) : Statement (.subi rd rm imm4) := by
  simp [Statement, encode, rowMask, rowMatch, and_low_nibble]
theorem and (rd rm rn : Reg) : Statement (.and rd rm rn) := by
  simp [Statement, encode, rowMask, rowMatch, and_low_nibble]
theorem or (rd rm rn : Reg) : Statement (.or rd rm rn) := by
  simp [Statement, encode, rowMask, rowMatch, and_low_nibble]
theorem shr (rd rm : Reg) (imm4 : BitVec 4) : Statement (.shr rd rm imm4) := by
  simp [Statement, encode, rowMask, rowMatch, and_low_nibble]
theorem shl (rd rm : Reg) (imm4 : BitVec 4) : Statement (.shl rd rm imm4) := by
  simp [Statement, encode, rowMask, rowMatch, and_low_nibble]
theorem cmp (ign : BitVec 4) (rm rn : Reg) : Statement (.cmp ign rm rn) := by
  simp [Statement, encode, rowMask, rowMatch, and_low_nibble]
theorem push (ign : BitVec 8) (rn : Reg) : Statement (.push ign rn) := by
  simp [Statement, encode, rowMask, rowMatch, and_low_nibble]
theorem pop (rd : Reg) (ign : BitVec 8) : Statement (.pop rd ign) := by
  simp [Statement, encode, rowMask, rowMatch, and_low_nibble]

end TableRow

end Sys2Proof.Laws
end

