-- ==== Sys2Proof/Tests/Slice0.lean ====
section
/-! SUPPORT. Tests of the model: expected values come from spec/95_test_vectors.md (its section in each heading) or from
the rule named, and a witness for the hypotheses of each obligation. -/

namespace Sys2Proof.Tests
open Sys2Proof.Machine

/-! ### Helpers -/

/-- The start state of section 2: the word at address `a`, everything else at reset. -/
def startAt (a w : Nat) : State :=
  ((State.reset.setReg pcReg (BitVec.ofNat 16 a)).stagePc (BitVec.ofNat 16 a)).withFetchWord 16 w

/-- The start state of section 2 with R1 = `x` and R2 = `y`. -/
def start2 (w : Nat) (x y : Word) : State := ((startAt 0x10 w).setReg 1 x).setReg 2 y

/-- The step answers a next state that meets `p`. -/
def stepMeets (s : State) (p : State → Bool) : Bool :=
  match step s with
  | .next t => p t
  | .fault _ | .refused _ => false

/-- A next state that meets `p` is one that exists. -/
theorem exists_of_stepMeets {s : State} {p : State → Bool} (h : stepMeets s p = true) :
    ∃ t, step s = .next t ∧ p t = true := by
  unfold stepMeets at h
  split at h
  · exact ⟨_, by assumption, h⟩
  · cases h
  · cases h

/-- Result in R3 and both flags. -/
def r3zc (r : Word) (z c : Bool) (t : State) : Bool := t.reg 3 = r && t.z = z && t.c = c

/-! ### Well-formedness: the one check -/

theorem test_pop15_all_ones_is_ill_formed : (Instr.pop 15 0xFF).wellFormed = false := by decide
theorem test_pop15_is_well_formed : (Instr.pop 15 0x00).wellFormed = true := by decide
theorem test_pop14_all_ones_is_well_formed : (Instr.pop 14 0xFF).wellFormed = true := by decide

/-! ### Decoding: words written out bit by bit from R90 (section 2.1) -/

theorem test_decode_halt : decode 0b1111111111111111 = .halt := by decide
theorem test_decode_jmp : decode 0b0000000001010000 = .jmp 5 := by decide
theorem test_decode_jmp_farthest_back : decode 0b1000000000000000 = .jmp 0x800 := by decide
theorem test_decode_jeq : decode 0b0001111111110001 = .jeq 0x1FF := by decide
theorem test_decode_jne : decode 0b0111111111010001 = .jne 0x3FD := by decide
theorem test_decode_jlt : decode 0b1000000000010001 = .jlt 1 := by decide
theorem test_decode_jge : decode 0b1110000000000001 = .jge 0x200 := by decide
theorem test_decode_ldr : decode 0b0011000100100010 = .ldr 3 1 2 := by decide
theorem test_decode_str : decode 0b0001011000110011 = .str 1 6 3 := by decide
theorem test_decode_mov : decode 0b0010100000000100 = .mov 2 0x80 := by decide
theorem test_decode_add : decode 0b0011000100100101 = .add 3 1 2 := by decide
theorem test_decode_addi : decode 0b0010111100100110 = .addi 2 15 2 := by decide
theorem test_decode_sub : decode 0b0011000100100111 = .sub 3 1 2 := by decide
theorem test_decode_subi : decode 0b0011000100011000 = .subi 3 1 1 := by decide
theorem test_decode_and : decode 0b0011000100101001 = .and 3 1 2 := by decide
theorem test_decode_or : decode 0b0011000100101010 = .or 3 1 2 := by decide
theorem test_decode_shr : decode 0b0011000101001011 = .shr 3 1 4 := by decide
theorem test_decode_shl : decode 0b0011000101001100 = .shl 3 1 4 := by decide
theorem test_decode_cmp : decode 0b1111000100101101 = .cmp 15 1 2 := by decide
theorem test_decode_push : decode 0b1010101101011110 = .push 0xAB 5 := by decide
theorem test_decode_pop : decode 0b0101101010101111 = .pop 5 0xAA := by decide
theorem test_decode_pop15_not_halt : decode 0b1111111111101111 = .pop 15 0xFE := by decide
theorem test_decodeTableWord : decodeTableWord 16 0x3122 = some (.ldr 3 1 2) ∧ decodeTableWord 32 0 = none := by decide

/-! ### Control transfer (section 2.2, R113) -/

theorem test_halt_at_top_of_memory :
    stepMeets (startAt 0x1FFF 0xFFFF) (fun t => t.status = .halted && t.pc = 0x2000) = true := by decide
theorem test_halt_dumps_once : stepMeets (startAt 0 0xFFFF) (fun t => t.diag.length = 1) = true := by decide
theorem test_jmp_wraps_below_zero : stepMeets (startAt 0 0xFFE0) (fun t => t.pc = 0xFFFF) = true := by decide
theorem test_jmp_farthest_back : stepMeets (startAt 0x800 0x8000) (fun t => t.pc = 0x0001) = true := by decide
theorem test_jeq_taken : stepMeets ((startAt 0x300 0x1FF1).setFlags true false) (fun t => t.pc = 0x0500) = true := by
  decide
theorem test_jne_not_taken : stepMeets ((startAt 4 0x7FD1).setFlags true false) (fun t => t.pc = 0x0005) = true := by
  decide
theorem test_jne_taken : stepMeets (startAt 4 0x7FD1) (fun t => t.pc = 0x0002) = true := by decide
theorem test_jlt_both_flags_not_taken :
    stepMeets ((startAt 0x10 0x8011).setFlags true true) (fun t => t.pc = 0x0011) = true := by decide
theorem test_jge_taken : stepMeets (startAt 0x300 0xE001) (fun t => t.pc = 0x0101) = true := by decide

/-! ### Loads, stores, moves (section 2.3) -/

/-- An item the integer port reads as 70000 and the character port as 'A'. -/
def itemA : InputItem := ⟨0x41, some 70000⟩

/-- R1 = 0xF000 and one item available. -/
def portState (w : Nat) : State := ((startAt 0x10 w).setReg 1 0xF000).setInput [itemA]

theorem test_ldr_address_wraps :
    stepMeets (((startAt 0x10 0x3122).setReg 1 0xFFFF).setCell 1 0x7777)
      (fun t => t.reg 3 = 0x7777 && t.accessed = [1]) = true := by decide
theorem test_ldr_character :
    stepMeets (portState 0x3102) (fun t => t.reg 3 = 0x0041 && t.diag = [.inChar 65] && t.input = []) = true := by decide
theorem test_ldr_integer_truncates :
    stepMeets (portState 0x3122) (fun t => t.reg 3 = 0x1170 && t.diag = [.inInt 70000]) = true := by decide
theorem test_ldr_to_r15_is_lost :
    stepMeets (((startAt 0x10 0xF122).setReg 1 0x100).setCell 0x102 0x50)
      (fun t => t.pc = 0x0011 && t.accessed = [0x102]) = true := by decide
theorem test_str_top_of_memory :
    stepMeets (((startAt 0x10 0xF633).setReg 6 0x1FF0).setReg 3 0x8000)
      (fun t => t.cell 0x1FFF = 0x8000 && t.accessed = [0x1FFF]) = true := by decide
theorem test_str_integer_port :
    stepMeets (((startAt 0x10 0x3633).setReg 6 0xF000).setReg 3 0x8000)
      (fun t => t.diag = [.outInt (-32768)] && t.accessed = []) = true := by decide
theorem test_str_character_port :
    stepMeets (((startAt 0x10 0x1633).setReg 6 0xF000).setReg 3 0x0141) (fun t => t.diag = [.outChar 0x41]) = true := by
  decide
theorem test_mov_zero_extends : stepMeets (startAt 0x10 0x2804) (fun t => t.reg 2 = 0x0080) = true := by decide
theorem test_mov_other_reading : movValue true 0x80 = 0xFF80 := by decide

/-! ### Arithmetic, logic, shifts, compare (sections 2.4, 2.5) -/

theorem test_add_both_flags : stepMeets (start2 0x3125 0xFFFF 1) (r3zc 0 true true) = true := by decide
theorem test_add_signed_overflow_unflagged : stepMeets (start2 0x3125 0x7FFF 1) (r3zc 0x8000 false false) = true := by
  decide
theorem test_addi_wraps : stepMeets (start2 0x31F6 0xFFFF 0) (r3zc 0x000E false true) = true := by decide
theorem test_sub_borrow : stepMeets (start2 0x3127 0x0003 0x0005) (r3zc 0xFFFE false true) = true := by decide
theorem test_sub_equal : stepMeets (start2 0x3127 0xFFFF 0xFFFF) (r3zc 0 true false) = true := by decide
theorem test_subi_borrow : stepMeets (start2 0x31F8 0x000E 0) (r3zc 0xFFFF false true) = true := by decide
theorem test_and_clears_carry :
    stepMeets ((start2 0x3129 0xAAAA 0x5555).setFlags false true) (r3zc 0 true false) = true := by decide
theorem test_or_clears_carry :
    stepMeets ((start2 0x312A 0x2000 0x0054).setFlags true true) (r3zc 0x2054 false false) = true := by decide
theorem test_shr_last_bit : stepMeets (start2 0x314B 0x00F8 0) (r3zc 0x000F false true) = true := by decide
theorem test_shr_by_zero_clears_carry :
    stepMeets ((start2 0x310B 0x8001 0).setFlags false true) (r3zc 0x8001 false false) = true := by decide
theorem test_shl_any_bit_lost : stepMeets (start2 0x312C 0x8000 0) (r3zc 0 true true) = true := by decide
theorem test_shl_no_bit_lost : stepMeets (start2 0x318C 0x00FF 0) (r3zc 0xFF00 false false) = true := by decide
theorem test_cmp_is_unsigned :
    stepMeets (start2 0x012D 0x8000 1) (fun t => t.z = false && t.c = false && t.reg 3 = 0) = true := by decide
theorem test_cmp_less : stepMeets (start2 0x012D 0 0xFFFF) (fun t => t.z = false && t.c = true) = true := by decide

/-! ### Stack (section 2.6) -/

theorem test_push_sp_pushes_decremented :
    stepMeets (startAt 0x10 0x00EE) (fun t => t.sp = 0x1FFF && t.cell 0x1FFF = 0x1FFF && t.accessed = []) = true := by
  decide
theorem test_push_at_zero_stores_nothing :
    stepMeets ((startAt 0x10 0x005E).setReg 14 0) (fun t => t.sp = 0xFFFF && t.mem = [(0x10, 0x005E)]) = true := by decide
theorem test_pop_sp_gets_popped_word :
    stepMeets (((startAt 0x10 0xE00F).setReg 14 0x1FFF).setCell 0x1FFF 0x0123) (fun t => t.sp = 0x0123) = true := by
  decide
theorem test_pop_r15_jumps :
    stepMeets (((startAt 0x10 0xF00F).setReg 14 0x1FFF).setCell 0x1FFF 4)
      (fun t => t.pc = 0x0004 && t.sp = 0x2000) = true := by decide

/-! ### The cycle, the debug hook, the environment (section 2.7, sections 1 and 3) -/

theorem test_breakpoint_dump_shows_state_after :
    stepMeets ((State.boot [(0, 0x1054), (1, 0xFFFF)] [0]))
      (fun t => t.diag = [.dump t.dumpOf] && t.dumpOf.regs[1] = 5 && t.dumpOf.regs[15] = 1) = true := by decide
theorem test_stack_addresses : stackDumpAddresses 0x1FFD = [0x1FFF, 0x1FFE, 0x1FFD] := by decide
theorem test_stack_addresses_empty : stackDumpAddresses 0x2000 = [] ∧ stackDumpAddresses 0x2001 = [] := by decide
theorem test_load_ignores_outside : (State.boot [(0x2000, 7), (3, 0x1FFFF)] [8192, 5, 5]).mem = [(3, 0xFFFF)] ∧
    (State.boot [(0x2000, 7), (3, 0x1FFFF)] [8192, 5, 5]).breakpoints = [5] := by decide
theorem test_parse_load : parseLoad [1, 3, 0, 0x10A4, 1, 0x2004, 0, 0] = some ([3], [(0, 0x10A4), (1, 0x2004)]) := by
  decide
theorem test_render_output : (Event.outChar 0x41).lines = ["OUT <= A"] ∧ (Event.outInt (-2)).lines = ["OUT <= -2"] ∧
    (Event.inInt 70000).lines = ["IN => 70000"] ∧
    (Event.abort 0x2000).lines = ["Program counter out of bounds: 0x2000!"] := by decide

/-! ### Every row of the opcode table runs as the first instruction after reset -/

/-- One word per row of spec/opcode_table.json. -/
def rowWords : List Nat :=
  [0xFFFF, 0x0000, 0x0001, 0x4001, 0x8001, 0xC001, 0x0002, 0x0003, 0x0004, 0x0005]
    ++ [0x0006, 0x0007, 0x0008, 0x0009, 0x000A, 0x000B, 0x000C, 0x000D, 0x000E, 0x000F]

theorem test_rows_run_after_reset :
    rowWords.all (fun w => stepMeets (State.reset.withFetchWord 16 w)
      (fun t => t.nextPc = t.pc && (w ≠ 0xFFFF || t.status = .halted))) = true := by decide

/-! ### Witnesses: the hypotheses of each obligation hold together somewhere, at the edges of each clause -/

theorem witness_DecodeEncodeRoundTrip :
    (Instr.pop 15 0xFE).wellFormed = true ∧ (Instr.pop 14 0xFF).wellFormed = true ∧ Instr.halt.wellFormed = true := by
  decide
/-- One word for each clause of DecodeReadsEveryField, and the condition codes at both ends of their quarter. -/
theorem witness_DecodeReadsEveryField :
    (∀ n, n < 16 → (BitVec.ofNat 16 (0xFFE0 + n) : Word) ≠ 0xFFFF ∧ (BitVec.ofNat 16 (0xFFE0 + n) : Word).toNat % 16 = n) ∧
    (0x0001 / 16384 = 0 ∧ 0x3FF1 / 16384 = 0 ∧ 0x4001 / 16384 = 1 ∧ 0x7FF1 / 16384 = 1 ∧ 0x8001 / 16384 = 2 ∧
      0xBFF1 / 16384 = 2 ∧ 0xC001 / 16384 = 3 ∧ 0xFFF1 / 16384 = 3) := by decide
theorem witness_EveryWordHasAMeaning : (0xFFFE : Word) ≠ 0xFFFF ∧ (0x0000 : Word) ≠ 0xFFFF := by decide
theorem witness_IgnoredBitsChangeNothing :
    (0x012D % 4096 = 0xF12D % 4096 ∧ 0xF12D % 16 = 13) ∧ (0x005E % 256 = 0xFF5E % 256 ∧ 0xFF5E % 16 = 14) ∧
    (0xF00F % 16 = 15 ∧ 0xFFEF % 16 = 15 ∧ 0xF00F / 4096 = 0xFFEF / 4096 ∧ (0xFFEF : Word) ≠ 0xFFFF) := by decide

/-- ADD R3, R1, R2 at the last address of memory. -/
def topState : State := startAt 0x1FFF 0x3125

theorem topState_ready : topState.ready := by decide
theorem topState_steps : ∃ t, step topState = .next t ∧ (t.pc = 0x2000) = true := by
  obtain ⟨t, h, ht⟩ := exists_of_stepMeets (s := topState) (p := fun t => t.pc = 0x2000) (by decide)
  exact ⟨t, h, by simpa using ht⟩
theorem topState_execs : ∃ t, exec (decode topState.fetchWord) topState.advance = .next t :=
  (exec_next _ _).imp fun _ h => h.1

theorem witness_StepRunsDecodedInstruction :
    topState.status = .running ∧ topState.pc.toNat < 8192 ∧ decode (topState.cell topState.pc.toNat) = .add 3 1 2 ∧
    heldAt (.add 3 1 2) topState.advance = false ∧ ∃ t, exec (.add 3 1 2) topState.advance = .next t := by
  exact ⟨by decide, by decide, by decide, by decide, _, rfl⟩
theorem witness_FetchStagesNextAddress : topState.pc.toNat < 8192 ∧ topState.pc.toNat = 8191 := by decide
theorem witness_CommitCopiesNextPc :
    topState.ready ∧ ∃ t, exec (decode topState.fetchWord) topState.advance = .next t := ⟨topState_ready, topState_execs⟩
theorem witness_OverrunEndsTheRun :
    (startAt 0x2000 0).status = .running ∧ 8192 ≤ ((startAt 0x2000 0).reg 15).toNat ∧
    8192 ≤ ((startAt 0xFFFF 0).reg 15).toNat := by decide
theorem witness_RunEndsExactlySo :
    (startAt 0x1FFF 0xFFFF).status = .running ∧ ((startAt 0x1FFF 0xFFFF).reg 15).toNat < 8192 ∧
    (startAt 0x1FFF 0xFFFF).cell ((startAt 0x1FFF 0xFFFF).reg 15).toNat = 0xFFFF ∧
    (startAt 0x2000 0).status = .running ∧
    step (startAt 0x2000 0) = .fault (.pcOutOfBounds 0x2000 (startAt 0x2000 0).abortAt) ∧
    topState.status = .running ∧ ∃ t, step topState = .next t ∧ (t.pc = 0x2000) = true := by
  exact ⟨by decide, by decide, by decide, by decide, rfl, by decide, topState_steps⟩
theorem witness_EndedMachineStaysEnded :
    (State.reset.setStatus .halted).status = .halted ∧ (State.reset.setStatus .aborted).status = .aborted := by decide

/-- LDR R3, [R1 + #0] or #2 with R1 = 0xF000: an input read with nothing available. -/
def waitState (w : Nat) : State := (startAt 0x10 w).setReg 1 0xF000

theorem witness_InputReadWaits :
    (waitState 0x3102).status = .running ∧ (waitState 0x3102).pc.toNat < 8192 ∧
    decode ((waitState 0x3102).cell (waitState 0x3102).pc.toNat) = .ldr 3 1 0 ∧
    (((waitState 0x3102).advance.reg 1).toNat + 0) % 65536 = 0xF000 ∧
    decode ((waitState 0x3122).cell (waitState 0x3122).pc.toNat) = .ldr 3 1 2 ∧
    (((waitState 0x3122).advance.reg 1).toNat + 2) % 65536 = 0xF002 ∧
    (waitState 0x3102).input = [] ∧ (waitState 0x3102).inputEnded = false ∧
    (waitState 0x3122).input = [] ∧ (waitState 0x3122).inputEnded = false := by decide
/-- The states of `witness_InputReadWaits` meet these hypotheses too; with destination 3 the last clause applies, with
destination 15 it does not. -/
theorem witness_InputArrivalCompletesRead :
    decode ((waitState 0x3102).cell (waitState 0x3102).pc.toNat) = .ldr 3 1 0 ∧ (waitState 0x3102).input = [] ∧
    (3 : Reg) ≠ 15 ∧ decode ((waitState 0xF122).cell (waitState 0xF122).pc.toNat) = .ldr 15 1 2 := by decide
/-- Ready at a breakpoint, ready at the sentinel, ready at neither. -/
theorem witness_OneDumpPerTrigger :
    ((topState.setBreakpoints [0x1FFF]).ready ∧
      ((topState.setBreakpoints [0x1FFF]).reg 15).toNat ∈ (topState.setBreakpoints [0x1FFF]).breakpoints ∧
      (topState.setBreakpoints [0x1FFF]).fetchWord ≠ 0xFFFF) ∧
    ((startAt 0x1FFF 0xFFFF).ready ∧ (startAt 0x1FFF 0xFFFF).fetchWord = 0xFFFF) ∧
    (topState.ready ∧ (topState.reg 15).toNat ∉ topState.breakpoints) := by decide
theorem witness_DumpShowsStackAndAccessed :
    State.reset.sp = 0x2000 ∧ (State.reset.setReg 14 0x1FFF).sp ≠ 0x2000 ∧
    0 < 8192 - (State.reset.setReg 14 0x1FFF).sp.toNat ∧ (State.reset.markAccessed 8191).accessed.wf ∧
    8191 ∈ (State.reset.markAccessed 8191).accessed := by decide
theorem witness_BranchesTakenByFlags :
    (State.reset.setFlags true false).z = true ∧ (State.reset.setFlags true false).c = false ∧
    (State.reset.setFlags false true).z = false ∧ (State.reset.setFlags false true).c = true := by decide
theorem witness_OnlyTakenBranchesOverrideNextPc (i : Instr) : ∃ t, exec i State.reset = .next t :=
  (exec_next i _).imp fun _ h => h.1
theorem witness_ProgramCounterAfterStep : topState.ready ∧ ∃ t, step topState = .next t ∧ (t.pc = 0x2000) = true :=
  ⟨topState_ready, topState_steps⟩
theorem witness_WriteToRegister15IsLost :
    (startAt 0x10 0xF125).ready ∧ (∃ t, step (startAt 0x10 0xF125) = .next t ∧ decide (t.pc = 0x11) = true) ∧
    decode (startAt 0x10 0xF125).fetchWord = .add 15 1 2 :=
  ⟨by decide, exists_of_stepMeets (by decide), by decide⟩
theorem witness_LdrReadsMemoryOrZero :
    ((0x1FFF : Nat) = ((State.reset.setReg 1 0x1FFF).reg 1).toNat % 65536 ∧ (0x1FFF : Nat) ≠ 0xF000) ∧
    (0x2000 : Nat) = (((State.reset.setReg 1 0x1FFF).reg 1).toNat + 1) % 65536 ∧
    (0xF001 : Nat) = (((State.reset.setReg 1 0xF000).reg 1).toNat + 1) % 65536 := by decide
theorem witness_LdrReadsCharacterPort :
    (((portState 0x3102).reg 1).toNat + 0) % 65536 = 0xF000 ∧ (portState 0x3102).input = itemA :: [] := by decide
theorem witness_LdrReadsIntegerPort :
    (((portState 0x3122).reg 1).toNat + 2) % 65536 = 0xF002 ∧ (portState 0x3122).input = itemA :: [] := by decide
theorem witness_LdrAtEndOfInput :
    (waitState 0x3102).endInput.input = [] ∧ (waitState 0x3102).endInput.inputEnded = true ∧
    (((waitState 0x3102).endInput.reg 1).toNat + 0) % 65536 = 0xF000 ∧
    (((waitState 0x3122).endInput.reg 1).toNat + 2) % 65536 = 0xF002 := by decide
theorem witness_LdrFrame : ∃ t, exec (.ldr 3 1 2) State.reset = .next t := (exec_next _ _).imp fun _ h => h.1
theorem witness_StrResult :
    (0x1FFF : Nat) = ((State.reset.setReg 1 0x1FFF).reg 1).toNat % 65536 ∧
    (0x2000 : Nat) = (((State.reset.setReg 1 0x1FFF).reg 1).toNat + 1) % 65536 ∧
    (0xF001 : Nat) = (((State.reset.setReg 1 0xF000).reg 1).toNat + 1) % 65536 ∧
    (0xF003 : Nat) = (((State.reset.setReg 1 0xF000).reg 1).toNat + 3) % 65536 := by decide
theorem witness_CharacterOutputEmitsLowByte : (((State.reset.setReg 1 0xF000).reg 1).toNat + 1) % 65536 = 0xF001 := by
  decide
theorem witness_IntegerOutputIsSigned :
    (((State.reset.setReg 1 0xF000).reg 1).toNat + 3) % 65536 = 0xF003 ∧
    ((State.reset.setReg 2 0x7FFF).reg 2).toNat < 32768 ∧ ¬ ((State.reset.setReg 2 0x8000).reg 2).toNat < 32768 := by
  decide
theorem witness_StoresTouchOneCell :
    (∃ t, exec (.str 0 1 2) (State.reset.setReg 1 0x1FFF) = .next t) ∧
    ((State.reset.setReg 1 0x1FFF).effectiveAddress 1 0).toNat = 8191 ∧
    ((State.reset.setReg 1 0x1FFF).effectiveAddress 1 1).toNat = 8192 ∧
    (∃ t, exec (.push 0 14) State.reset = .next t) ∧ State.reset.pushedSp.toNat = 8191 ∧
    (State.reset.setReg 14 0x2001).pushedSp.toNat = 8192 ∧ (State.reset.setReg 14 0).pushedSp.toNat = 0xFFFF := by
  exact ⟨⟨_, rfl⟩, by decide, by decide, ⟨_, rfl⟩, by decide, by decide, by decide⟩
theorem witness_DataAccessNeverEndsTheRun :
    (∃ rd rm k, Instr.ldr 1 2 3 = .ldr rd rm k) ∧ (∃ k rm rn, Instr.str 1 2 3 = .str k rm rn) ∧
    (∃ g rn, Instr.push 1 2 = .push g rn) ∧ (∃ rd g, Instr.pop 1 2 = .pop rd g) :=
  ⟨⟨1, 2, 3, rfl⟩, ⟨1, 2, 3, rfl⟩, ⟨1, 2, rfl⟩, ⟨1, 2, rfl⟩⟩
theorem witness_CompareFlagsAreSubtractFlags :
    ∃ t u v, exec (.cmp 0 1 2) State.reset = .next t ∧ exec (.sub 3 1 2) State.reset = .next u ∧
      exec (.subi 3 1 15) State.reset = .next v := ⟨_, _, _, rfl, rfl, rfl⟩
theorem witness_RegisterInstructionsFrame :
    (∃ t, exec (.add 3 1 2) State.reset = .next t) ∧ ∃ t, exec (.mov 3 0xFF) State.reset = .next t :=
  ⟨⟨_, rfl⟩, ⟨_, rfl⟩⟩
/-- The opcode numbers at the edges of the two clauses of FlagsWrittenByNineInstructions. -/
theorem witness_FlagsWrittenByNineInstructions :
    (Instr.mov 0 0).opcodeNumber = 4 ∧ (Instr.push 0 0).opcodeNumber = 14 ∧ (Instr.add 0 0 0).opcodeNumber = 5 ∧
    (Instr.cmp 0 0 0).opcodeNumber = 13 ∧ (Instr.jmp 0).opcodeNumber ≠ 1 ∧
    ∃ t, exec (.mov 0 0) State.reset = .next t := ⟨rfl, rfl, rfl, rfl, by decide, _, rfl⟩
/-- SP at the last cell and at the first address outside memory. -/
theorem witness_PopResult :
    (0xABCD : Word) = (if ((((State.reset.setReg 14 0x1FFF).setCell 0x1FFF 0xABCD)).reg 14).toNat < 8192
      then ((State.reset.setReg 14 0x1FFF).setCell 0x1FFF 0xABCD).cell 0x1FFF else 0) ∧
    (0 : Word) = (if (State.reset.reg 14).toNat < 8192 then State.reset.cell (State.reset.reg 14).toNat else 0) := by
  decide
theorem witness_PopFrame : ∃ t, exec (.pop 15 0) State.reset = .next t := ⟨_, rfl⟩
theorem witness_PushThenPopRestores :
    ((0 : Reg).val ≤ 13 ∧ (13 : Reg).val ≤ 13) ∧ 1 ≤ (State.reset.reg 14).toNat ∧ (State.reset.reg 14).toNat ≤ 0x2000 ∧
    ((State.reset.setReg 14 1).reg 14).toNat = 1 := by decide
/-- A step that changes a cell and marks it (STR), one that changes a cell (PUSH), one that marks one (LDR). -/
theorem witness_OnlyTheseInstructionsTouchMemory :
    (∃ t, step (start2 0x0123 0x1FFF 7) = .next t ∧
      (decide (t.cell 0x1FFF ≠ (start2 0x0123 0x1FFF 7).cell 0x1FFF) && decide (0x1FFF ∈ t.accessed)) = true) ∧
    (∃ t, step (start2 0x001E 7 0) = .next t ∧ decide (t.cell 0x1FFF ≠ (start2 0x001E 7 0).cell 0x1FFF) = true) ∧
    (∃ t, step (start2 0x3102 5 0) = .next t ∧ decide (5 ∈ t.accessed) = true) :=
  ⟨exists_of_stepMeets (by decide), exists_of_stepMeets (by decide), exists_of_stepMeets (by decide)⟩
theorem witness_StepKeepsRunInputs :
    ∃ t, step (portState 0x3102) = .next t ∧ decide ((portState 0x3102).input = itemA :: t.input) = true :=
  exists_of_stepMeets (by decide)

/-- STR [R1 + #0], R2 at 0x10 with R1 = 0x11: a store to the next instruction. -/
theorem witness_StoreSeenByNextFetch :
    (start2 0x0123 0x11 7).ready ∧ decode (start2 0x0123 0x11 7).fetchWord = .str 0 1 2 ∧
    ((start2 0x0123 0x11 7).advance.effectiveAddress 1 0).toNat = (start2 0x0123 0x11 7).pc.toNat + 1 ∧
    (start2 0x0123 0x11 7).pc.toNat + 1 < 8192 ∧
    ∃ t, step (start2 0x0123 0x11 7) = .next t ∧ decide (t.fetchWord = 7) = true :=
  ⟨by decide, by decide, by decide, by decide, exists_of_stepMeets (by decide)⟩
theorem witness_LoadWritesOnlyMemory : (8191 < 8192 ∧ 8192 ≤ 8192 ∧ (0 : Nat) ≠ 8191) ∧
    (∀ p ∈ [((8191 : Nat), (7 : Nat)), (8192, 3)], p.1 ≠ 8190) ∧
    (State.reset.load [(8191, 7), (8191, 9), (8192, 3)]).mem = [(8191, 9)] := by decide
theorem witness_StepKeepsInvariant : topState.Inv ∧ ∃ t, step topState = .next t ∧ (t.pc = 0x2000) = true :=
  ⟨by decide, topState_steps⟩
theorem witness_RunsStopOnlyByOverrun : State.reset.Inv ∧ State.reset.status ≠ .aborted := by decide
theorem witness_DebugMachineryIsInvisible :
    State.reset.withoutDebug = ((State.reset.setBreakpoints [0, 8191]).markAccessed 7).withoutDebug ∧
    State.reset ≠ ((State.reset.setBreakpoints [0, 8191]).markAccessed 7) := by decide

end Sys2Proof.Tests
end

section
/-! PROOFS. The character output port (R60 of spec/20_memory.md). -/

namespace Sys2Proof.Machine

/-- STR is a router write of the source register at the effective address (R141). -/
theorem exec_str (k : BitVec 4) (rm rn : Reg) (s : State) :
    exec (.str k rm rn) s = .next (s.memWrite (s.effectiveAddress rm k) (s.reg rn)) := rfl

/-- The effective address is the one with the number `(x[rm] + offset) mod 2^16` (R143). -/
theorem effectiveAddress_eq_of_toNat {s : State} {rm : Reg} {k : BitVec 4} {a : Word}
    (h : ((s.reg rm).toNat + k.toNat) % 65536 = a.toNat) : s.effectiveAddress rm k = a :=
  BitVec.eq_of_toNat_eq ((BitVec.toNat_ofNat ..).trans h)

/-- The router's write of the character output port (R56). -/
@[simp] theorem memWrite_charOut (s : State) (v : Word) : s.memWrite ioCharOut v = s.charOut v := if_pos rfl

/-- `CharOut` appends one event with the byte `v mod 2^8`: bits 15:8 are ignored (R60). -/
theorem charOut_eq_emit_mod (s : State) (v : Word) :
    s.charOut v = s.emit (.outChar (BitVec.ofNat 8 (v.toNat % 256))) := by
  have low : v.extractLsb' 0 8 = BitVec.ofNat 8 (v.toNat % 256) :=
    BitVec.eq_of_toNat_eq (by simp [BitVec.extractLsb'_toNat])
  rw [State.charOut, low]

/-- STR to the character output port emits the low byte of the source register and changes nothing else (R60, R141). -/
theorem exec_str_charOut {k : BitVec 4} {rm rn : Reg} {s : State} (h : s.effectiveAddress rm k = ioCharOut) :
    exec (.str k rm rn) s = .next (s.emit (.outChar (BitVec.ofNat 8 ((s.reg rn).toNat % 256)))) := by
  rw [exec_str, h, memWrite_charOut, charOut_eq_emit_mod]

/-- A character event is one line, whatever the byte (R60). -/
theorem outChar_lines (b : Byte) : (Event.outChar b).lines = ["OUT <= " ++ glyph b] := rfl

/-- The low byte of 0x0141 is 0x41, the one byte whose glyph the source gives (R60). -/
theorem glyph_lowByte_0x0141 : glyph (BitVec.ofNat 8 (0x0141 % 256)) = "A" := if_pos (by decide)

/-- Settles O31: the address selects the port in the router, the port emits the low byte, and the event renders as one
line. -/
theorem characterOutputEmitsLowByte : Obligations.CharacterOutputEmitsLowByte :=
  ⟨fun _ _ _ _ h => exec_str_charOut (effectiveAddress_eq_of_toNat (a := ioCharOut) h), outChar_lines,
    glyph_lowByte_0x0141⟩

end Sys2Proof.Machine
end

section
/-! PROOFS. What the opcode map selects for a word (R91 to R93), and that no word is refused (R114, R120). -/

namespace Sys2Proof

/-- The opcode is the low nibble, by remainder (R81). -/
theorem opcodeOf_toNat (w : Word) : (opcodeOf w).toNat = w.toNat % 16 := by
  simp [opcodeOf, BitVec.extractLsb'_toNat]

/-- Whatever the condition code, opcode 1 is a conditional jump (R88, R92). -/
theorem decodeCond_cases (w : Word) :
    decodeCond w = .jeq (off10Of w) ∨ decodeCond w = .jne (off10Of w) ∨
    decodeCond w = .jlt (off10Of w) ∨ decodeCond w = .jge (off10Of w) := by
  unfold decodeCond
  split
  · exact .inl rfl
  · exact .inr (.inl rfl)
  · exact .inr (.inr (.inl rfl))
  · exact .inr (.inr (.inr rfl))

theorem decodeCond_ne_halt (w : Word) : decodeCond w ≠ .halt := by
  rcases decodeCond_cases w with h | h | h | h <;> rw [h] <;> exact nofun

theorem decodeCond_opcodeNumber (w : Word) : (decodeCond w).opcodeNumber = 1 := by
  rcases decodeCond_cases w with h | h | h | h <;> rw [h] <;> rfl

/-- HALT is no entry of the opcode map: its word is tested before (R91). -/
theorem decodeOpcode_ne_halt (w : Word) : decodeOpcode w ≠ .halt := by
  unfold decodeOpcode
  split
  case h_2 => exact decodeCond_ne_halt w
  all_goals exact nofun

/-- Each entry of the opcode map is the instruction with that opcode (R92). -/
theorem decodeOpcode_opcodeNumber (w : Word) : (decodeOpcode w).opcodeNumber = (opcodeOf w).toNat := by
  have hlt : (opcodeOf w).toNat < 16 := (opcodeOf w).isLt
  unfold decodeOpcode
  split
  case h_2 h => rw [decodeCond_opcodeNumber, h]
  case h_16 =>
    -- The last entry has no number of its own: 15 is what the other fifteen leave.
    show 15 = (opcodeOf w).toNat
    simp only [imp_false] at *
    omega
  all_goals exact Eq.symm ‹(opcodeOf w).toNat = _›

theorem decode_haltWord : decode haltWord = .halt := if_pos rfl

/-- Every word but the sentinel decodes by the opcode map (R91). -/
theorem decode_of_ne_haltWord {w : Word} (h : w ≠ haltWord) : decode w = decodeOpcode w := if_neg h

/-- Settles O4: the decoder's two cases, the opcode map entry by entry, and `exec_next` for the execution. -/
theorem everyWordHasAMeaning : Obligations.EveryWordHasAMeaning := by
  refine ⟨decode_haltWord, fun w => ⟨fun hw => ?_, fun s => ?_⟩⟩
  · rw [decode_of_ne_haltWord hw]
    exact ⟨decodeOpcode_ne_halt w, (decodeOpcode_opcodeNumber w).trans (opcodeOf_toNat w)⟩
  · obtain ⟨t, ht, -⟩ := Machine.exec_next (decode w) s
    exact ⟨t, ht⟩

end Sys2Proof
end

section
/-! PROOFS. Signed fields as two's-complement integers of their width (R89 of spec/30_encoding.md). -/

namespace Sys2Proof.Machine

/-- A field of `n` bits read as a signed integer: below half of `2^n` it is its number, from there on its number less
`2^n` (R89). -/
theorem toInt_eq_of_half {n half : Nat} (hn : 2 ^ n = 2 * half) (o : BitVec n) :
    o.toInt = if o.toNat < half then (o.toNat : Int) else (o.toNat : Int) - (2 * half : Nat) := by
  rw [BitVec.toInt_eq_toNat_cond, hn]
  exact if_congr (by omega) rfl rfl

/-- Settles O7: the sign of a field of 10, 12 or 8 bits changes at 512, 2048 or 128. -/
theorem offsetsAreSignExtended : Obligations.OffsetsAreSignExtended := by
  refine ⟨fun b o => ?_, fun b o => ?_, fun o => ?_⟩
  · exact congrArg (fun k : Int => BitVec.ofInt 16 (b.toNat + k)) (toInt_eq_of_half (half := 512) rfl o)
  · exact congrArg (fun k : Int => BitVec.ofInt 16 (b.toNat + k)) (toInt_eq_of_half (half := 2048) rfl o)
  · exact congrArg (BitVec.ofInt 16) (toInt_eq_of_half (half := 128) rfl o)

end Sys2Proof.Machine
end

section
/-! PROOFS. The fetch and the commit of one cycle (R112, R116, R119 of spec/40_cycle_halt.md). -/

namespace Sys2Proof.Machine

/-- From an address in memory A + 1 does not wrap (R112). -/
theorem toNat_ofNat_pc_succ {s : State} (h : s.pc.toNat < memWords) :
    (BitVec.ofNat 16 (s.pc.toNat + 1)).toNat = s.pc.toNat + 1 := by
  rw [memWords_eq] at h
  exact Nat.mod_eq_of_lt (by omega)

/-- The fetch changes nothing but the registers and `next_pc` (R112). -/
theorem advance_frame (s : State) : s.advance = { s with regs := s.advance.regs, nextPc := s.advance.nextPc } := rfl

/-- Settles O9: both register 15 and `next_pc` are the word of A + 1, which is below 2^16 when A is in memory. -/
theorem fetchStagesNextAddress : Obligations.FetchStagesNextAddress := by
  intro s h
  refine ⟨fetchWord_eq s, ?_, ?_, fun r hr => reg_advance s hr, advance_frame s⟩
  · exact (congrArg BitVec.toNat (pc_advance s)).trans (toNat_ofNat_pc_succ h)
  · exact (congrArg BitVec.toNat (nextPc_advance s)).trans (toNat_ofNat_pc_succ h)

/-- A cycle that is ready runs the handler on the fetched state, then the commit and the debug hook (R119). -/
theorem step_of_ready {s t : State} (hr : s.ready) (ht : exec (decode s.fetchWord) s.advance = .next t) :
    step s = .next (t.commit.debugHook s.pc.toNat) := by
  obtain ⟨hrun, hpc, hheld⟩ := hr
  simp only [step, cycle, hrun, runCycle, hpc, hheld, if_true, Bool.false_eq_true, if_false, ht, finish]

/-- Register 15 after the commit and the hook is `next_pc`, whatever it held before (R28, R116). -/
theorem reg_15_commit_debugHook (t : State) (a : Nat) : (t.commit.debugHook a).reg 15 = t.nextPc :=
  (pc_debugHook t.commit a).trans (pc_commit t)

/-- The commit and the hook keep every other register (R116, R117). -/
theorem reg_commit_debugHook_of_ne (t : State) (a : Nat) {r : Reg} (hr : r ≠ 15) :
    (t.commit.debugHook a).reg r = t.reg r :=
  (reg_debugHook t.commit a r).trans (reg_commit t hr)

/-- Settles O10: what follows the handler is the commit and the debug hook, whatever the word. -/
theorem commitCopiesNextPc : Obligations.CommitCopiesNextPc := fun _ t hr ht =>
  ⟨_, step_of_ready hr ht, reg_15_commit_debugHook t _, fun _ h => reg_commit_debugHook_of_ne t _ h⟩

end Sys2Proof.Machine
end

section
/-! PROOFS. The conditional jumps by their flag conditions (R131 to R134, R138 of spec/41_control_transfer.md). -/

namespace Sys2Proof.Machine

/-- A jump whose condition says `p` stages its target when `p` holds and leaves the state when it does not (R136). -/
theorem jumpIf_eq_ite {s : State} {taken : Bool} {p : Prop} [Decidable p] (h : taken = true ↔ p) {n : Nat}
    (off : BitVec n) :
    s.jumpIf taken off = if p then { s with nextPc := branchTarget (s.reg 15) off } else s := if_congr h rfl rfl

theorem condEq_iff (z c : Bool) : condEq z c = true ↔ z = true := Iff.rfl
theorem condNe_iff (z c : Bool) : condNe z c = true ↔ z = false := by simp [condNe]
theorem condLt_iff (z c : Bool) : condLt z c = true ↔ z = false ∧ c = true := by simp [condLt]
theorem condGe_iff (z c : Bool) : condGe z c = true ↔ z = true ∨ c = false := by simp [condGe]

/-- JEQ is taken when Z = 1 (R131). -/
theorem exec_jeq (off : BitVec 10) (s : State) :
    exec (.jeq off) s = .next (if s.z = true then { s with nextPc := branchTarget (s.reg 15) off } else s) :=
  congrArg Host.Outcome.next (jumpIf_eq_ite (condEq_iff s.z s.c) off)

/-- JNE is taken when Z = 0 (R132). -/
theorem exec_jne (off : BitVec 10) (s : State) :
    exec (.jne off) s = .next (if s.z = false then { s with nextPc := branchTarget (s.reg 15) off } else s) :=
  congrArg Host.Outcome.next (jumpIf_eq_ite (condNe_iff s.z s.c) off)

/-- JLT is taken when Z = 0 and C = 1 (R133). -/
theorem exec_jlt (off : BitVec 10) (s : State) :
    exec (.jlt off) s =
      .next (if s.z = false ∧ s.c = true then { s with nextPc := branchTarget (s.reg 15) off } else s) :=
  congrArg Host.Outcome.next (jumpIf_eq_ite (condLt_iff s.z s.c) off)

/-- JGE is taken when Z = 1 or C = 0 (R134). -/
theorem exec_jge (off : BitVec 10) (s : State) :
    exec (.jge off) s =
      .next (if s.z = true ∨ s.c = false then { s with nextPc := branchTarget (s.reg 15) off } else s) :=
  congrArg Host.Outcome.next (jumpIf_eq_ite (condGe_iff s.z s.c) off)

/-- Settles O21: the flag pair decides the condition of each jump. -/
theorem branchesTakenByFlags : Obligations.BranchesTakenByFlags := by
  refine fun off s => ⟨fun hz hc => ⟨?eq, ?ge, ?ne, ?lt⟩, fun hz hc => ⟨?lt', ?ne', ?eq', ?ge'⟩⟩
  case eq => rw [exec_jeq, if_pos hz]
  case ge => rw [exec_jge, if_pos (.inl hz)]
  case ne => rw [exec_jne, if_neg (by simp [hz])]
  case lt => rw [exec_jlt, if_neg (by simp [hz])]
  case lt' => rw [exec_jlt, if_pos ⟨hz, hc⟩]
  case ne' => rw [exec_jne, if_pos hz]
  case eq' => rw [exec_jeq, if_neg (by simp [hz])]
  case ge' => rw [exec_jge, if_neg (by simp [hz, hc])]

end Sys2Proof.Machine
end

section
/-! PROOFS. The dump after a cycle, and what it shows (R194 to R198 of spec/60_exceptions.md). -/

namespace Sys2Proof.Machine

/-! ### Only HALT changes the status -/

@[simp] theorem status_jumpIf (s : State) (taken : Bool) {n : Nat} (off : BitVec n) :
    (s.jumpIf taken off).status = s.status := by
  unfold State.jumpIf
  split <;> rfl

@[simp] theorem status_memWrite (s : State) (a v : Word) : (s.memWrite a v).status = s.status := by
  rcases memWrite_cases s a v with ⟨-, h⟩ | ⟨-, es, h, -⟩
  · rw [h, setCell_status, markAccessed_status]
  · rw [h]

@[simp] theorem status_stackWrite (s : State) (a v : Word) : (s.stackWrite a v).status = s.status := by
  rcases stackWrite_cases s a v with ⟨-, h⟩ | ⟨-, h⟩
  · rw [h, setCell_status]
  · rw [h]

theorem status_of_memRead {s t : State} {a v : Word} (h : s.memRead a = some (v, t)) : t.status = s.status := by
  obtain ⟨inp, n, acc, es, rfl, -⟩ := memRead_some s h
  rfl

theorem status_of_execLdr {rd rm : Reg} {k : BitVec 4} {s t : State} (h : execLdr rd rm k s = .next t) :
    t.status = s.status := by
  unfold execLdr at h
  split at h
  · next v u hread =>
    rw [← Host.Outcome.next.inj h, setReg_status]
    exact status_of_memRead hread
  · exact Host.Outcome.next.inj h ▸ rfl

theorem status_of_execPop {rd : Reg} {ign : BitVec 8} {s t : State} (h : execPop rd ign s = .next t) :
    t.status = s.status := by
  rw [← Host.Outcome.next.inj h]
  split <;> simp

/-- No instruction but HALT changes the status (R34, R113). -/
theorem status_of_exec {i : Instr} {s t : State} (hi : i ≠ .halt) (h : exec i s = .next t) : t.status = s.status := by
  cases i with
  | halt => exact absurd rfl hi
  | jmp off | jeq off | jne off | jlt off | jge off => exact Host.Outcome.next.inj h ▸ status_jumpIf s _ off
  | ldr rd rm k => exact status_of_execLdr h
  | str k rm rn => exact Host.Outcome.next.inj h ▸ status_memWrite s _ _
  | push ign rn => exact Host.Outcome.next.inj h ▸ status_stackWrite (s.setReg spReg s.pushedSp) _ _
  | pop rd ign => exact status_of_execPop (ign := ign) h
  | mov | add | addi | sub | subi | and | or | shr | shl | cmp => exact Host.Outcome.next.inj h ▸ rfl

/-- Every word but the sentinel keeps the status (R91, R113). -/
theorem status_of_exec_decode {w : Word} {s t : State} (hw : w ≠ haltWord) (h : exec (decode w) s = .next t) :
    t.status = s.status :=
  status_of_exec (decode_of_ne_haltWord hw ▸ decodeOpcode_ne_halt w) h

/-! ### When the hook dumps -/

theorem dumpsAfter_iff (s : State) (a : Nat) : s.dumpsAfter a = true ↔ a ∈ s.breakpoints ∨ s.status = .halted := by
  simp [State.dumpsAfter]

/-- A dump does not show the diagnostic stream, so the hook leaves what a dump shows (R200). -/
@[simp] theorem dumpOf_debugHook (s : State) (a : Nat) : (s.debugHook a).dumpOf = s.dumpOf := by
  rw [debugHook_eq]
  rfl

/-- The hook appends the dump of its state, or nothing (R194). -/
theorem diag_debugHook (s : State) (a : Nat) :
    (s.debugHook a).diag = s.diag ++ if a ∈ s.breakpoints ∨ s.status = .halted then [.dump s.dumpOf] else [] := by
  rw [debugHook_eq]
  exact congrArg (s.diag ++ ·) (if_congr (dumpsAfter_iff s a) rfl rfl)

/-- Settles O16: the handler's own events are no dumps (`HandlerFrame`), the hook adds its one dump by `diag_debugHook`,
and only HALT ends RUNNING. -/
theorem oneDumpPerTrigger : Obligations.OneDumpPerTrigger := by
  intro s hr
  obtain ⟨t, ht, hframe⟩ := exec_next (decode s.fetchWord) s.advance
  obtain ⟨es, hdiag, hes⟩ := hframe.diag
  refine ⟨t.commit.debugHook s.pc.toNat, es, step_of_ready hr ht, fun hw => ?_, hes, ?_⟩
  · rw [status_debugHook, status_commit, status_of_exec_decode hw ht, status_advance, hr.1]
  · rw [diag_debugHook, diag_commit, hdiag, diag_advance, breakpoints_commit, hframe.breakpoints, breakpoints_advance,
      status_debugHook, dumpOf_debugHook]
    rfl

/-! ### What a dump shows -/

/-- The literal condition of R197 changes no list: at the reset value of SP no cell is left above it. -/
theorem stackDumpAddresses_eq (sp : Word) :
    stackDumpAddresses sp = (List.range' sp.toNat (memWords - sp.toNat)).reverse := by
  unfold stackDumpAddresses
  split
  · next h => rw [h]; rfl
  · rfl

theorem stackDumpAddresses_spReset : stackDumpAddresses spReset = [] := if_pos rfl

@[simp] theorem length_stackDumpAddresses (sp : Word) : (stackDumpAddresses sp).length = memWords - sp.toNat := by
  simp [stackDumpAddresses_eq]

/-- The stack addresses fall from the top of memory (R197). -/
theorem getElem?_stackDumpAddresses {sp : Word} {k : Nat} (h : k < memWords - sp.toNat) :
    (stackDumpAddresses sp)[k]? = some (memWords - 1 - k) := by
  rw [stackDumpAddresses_eq, List.reverse_range', List.getElem?_map, List.getElem?_range h]
  have top : sp.toNat + (memWords - sp.toNat) - 1 - k = memWords - 1 - k := by omega
  exact congrArg some top

/-- The accessed part is the set, each address with its cell (R198). -/
theorem mem_dumpOf_accessed {s : State} {a : Nat} {v : Word} :
    (a, v) ∈ s.dumpOf.accessed ↔ a ∈ s.accessed ∧ v = s.cell a := by
  simp only [State.dumpOf, List.mem_map, Prod.mk.injEq]
  constructor
  · rintro ⟨b, hb, rfl, rfl⟩
    exact ⟨hb, rfl⟩
  · rintro ⟨ha, rfl⟩
    exact ⟨a, ha, rfl, rfl⟩

/-- Settles O17: the stack part by its addresses, the accessed part as the image of the set, in its order. -/
theorem dumpShowsStackAndAccessed : Obligations.DumpShowsStackAndAccessed := by
  refine fun s => ⟨rfl, rfl, rfl, fun hsp => ?empty, fun _ => ⟨?length, fun k hk => ?cells⟩, fun hwf => ?ascending,
    fun _ _ => mem_dumpOf_accessed, accessed_debugHook s⟩
  case empty =>
    show (stackDumpAddresses s.sp).map (fun a => (a, s.cell a)) = []
    rw [show s.sp = spReset from hsp, stackDumpAddresses_spReset, List.map_nil]
  case length => exact (List.length_map ..).trans (length_stackDumpAddresses s.sp)
  case cells =>
    show ((stackDumpAddresses s.sp).map (fun a => (a, s.cell a)))[k]? = _
    rw [List.getElem?_map, getElem?_stackDumpAddresses hk]
    rfl
  case ascending => exact List.pairwise_map.mpr hwf.1

end Sys2Proof.Machine
end

section
/-! PROOFS. The decoder and the encoder are inverse to each other (R91 to R95 of spec/30_encoding.md), and the decoder's
fields by division. -/

namespace Sys2Proof

/-! ### Decoding of encoded instructions -/

/-- POP's word is the sentinel for the one ill-formed term alone (R95). -/
theorem encode_pop_ne_haltWord {rd : Reg} {ign : BitVec 8} (h : (Instr.pop rd ign).wellFormed = true) :
    encode (.pop rd ign) ≠ haltWord := by
  intro he
  have hrd : rdOf (encode (.pop rd ign)) = 15 := by rw [he]; decide
  have hign : imm8Of (encode (.pop rd ign)) = 0xFF#8 := by rw [he]; decide
  simp only [encode, rdOf_packNibbleByte, ofBits_toBits, imm8Of_packNibbleByte] at hrd hign
  simp [Instr.wellFormed, hrd, hign] at h

/-- The word of a well-formed instruction other than HALT is not the sentinel (R91, R95). -/
theorem encode_ne_haltWord {i : Instr} (hi : i ≠ .halt) (h : i.wellFormed = true) : encode i ≠ haltWord := by
  cases i with
  | halt => exact absurd rfl hi
  | pop rd ign => exact encode_pop_ne_haltWord h
  | _ => exact fun he => absurd (congrArg opcodeOf he) (by simp [encode, opcodeOf_haltWord])

/-- The opcode map reads back every field the encoder packed (R81 to R92). -/
theorem decodeOpcode_encode {i : Instr} (hi : i ≠ .halt) : decodeOpcode (encode i) = i := by
  cases i with
  | halt => exact absurd rfl hi
  | jeq off | jne off | jlt off | jge off => simp [encode, decodeOpcode, decodeCond]
  | _ => simp [encode, decodeOpcode]

/-- Settles O1: only HALT's word is the sentinel, and the opcode map reads back the fields of every other word. -/
theorem decodeEncodeRoundTrip : Obligations.DecodeEncodeRoundTrip := by
  intro i h
  by_cases hi : i = .halt
  · subst hi
    exact decode_haltWord
  · rw [decode_of_ne_haltWord (encode_ne_haltWord hi h), decodeOpcode_encode hi]

/-! ### Encoding of decoded words -/

/-- The condition code has four values (R88). -/
theorem condCode_cases (cc : BitVec 2) : cc = 0 ∨ cc = 1 ∨ cc = 2 ∨ cc = 3 := by
  revert cc
  decide

/-- Opcode 1 is packed again with the condition code and the offset it was read from (R86, R88). -/
theorem encode_decodeCond (w : Word) : encode (decodeCond w) = packCond (ccOf w) (off10Of w) 1 := by
  rcases condCode_cases (ccOf w) with h | h | h | h <;> simp [decodeCond, encode, h]

@[simp] theorem toBits_rdOf (w : Word) : (rdOf w).toBits = w.extractLsb' 12 4 := toBits_ofBits _
@[simp] theorem toBits_rmOf (w : Word) : (rmOf w).toBits = w.extractLsb' 8 4 := toBits_ofBits _
@[simp] theorem toBits_rnOf (w : Word) : (rnOf w).toBits = w.extractLsb' 4 4 := toBits_ofBits _

/-- The opcode field from its number. -/
theorem opcodeOf_eq_ofNat {w : Word} {n : Nat} (h : (opcodeOf w).toNat = n) : opcodeOf w = BitVec.ofNat 4 n := by
  rw [← h, BitVec.ofNat_toNat, BitVec.setWidth_eq]

/-- The encoder packs again every field the opcode map reads, format by format (R81 to R92). -/
theorem encode_decodeOpcode (w : Word) : encode (decodeOpcode w) = w := by
  have hlt : (opcodeOf w).toNat < 16 := (opcodeOf w).isLt
  unfold decodeOpcode
  split
  case h_1 h => simpa [encode, opcodeOf_eq_ofNat h] using packOff12_fields w
  case h_2 h => simpa [encode_decodeCond, opcodeOf_eq_ofNat h] using packCond_fields w
  case h_5 h => simpa [encode, opcodeOf_eq_ofNat h] using packNibbleByte_fields w
  case h_15 h => simpa [encode, opcodeOf_eq_ofNat h] using packByteNibble_fields w
  case h_16 =>
    have h : (opcodeOf w).toNat = 15 := by
      simp only [imp_false] at *
      omega
    simpa [encode, opcodeOf_eq_ofNat h] using packNibbleByte_fields w
  case h_3 h | h_7 h | h_9 h | h_12 h | h_13 h =>
    simpa [encode, imm4Of, opcodeOf_eq_ofNat h] using packNibbles_fields w
  case h_4 h | h_6 h | h_8 h | h_10 h | h_11 h | h_14 h =>
    simpa [encode, imm4hiOf, opcodeOf_eq_ofNat h] using packNibbles_fields w

/-- Whether the term is well formed shows in its word (R95). -/
theorem wellFormed_of_encode_ne_haltWord {i : Instr} (h : encode i ≠ haltWord) : i.wellFormed = true := by
  cases i with
  | pop rd ign =>
    simp only [Instr.wellFormed, Bool.not_eq_true', Bool.and_eq_false_imp, decide_eq_true_eq, decide_eq_false_iff_not]
    rintro rfl rfl
    exact h (by decide)
  | _ => rfl

/-- Settles O2: the encoder packs the fields the decoder reads, and only HALT's word is the sentinel. -/
theorem encodeDecodeRoundTrip : Obligations.EncodeDecodeRoundTrip := by
  intro w
  by_cases hw : w = haltWord
  · subst hw
    rw [decode_haltWord]
    exact ⟨rfl, rfl⟩
  · have he : encode (decode w) = w := by rw [decode_of_ne_haltWord hw, encode_decodeOpcode]
    exact ⟨wellFormed_of_encode_ne_haltWord (by rwa [he]), he⟩

/-! ### The fields by division -/

/-- A field cut out of a word is the field by division (spec/00_scope.md section 5). -/
theorem extractLsb'_eq_fieldOf (w : Word) (lo n : Nat) : w.extractLsb' lo n = fieldOf w lo n := by
  rw [fieldOf, ← Nat.shiftRight_eq_div_pow]
  rfl

/-- A register field cut out of a word is the register by division (R82). -/
theorem ofBits_extractLsb'_eq_regField (w : Word) (lo : Nat) : Reg.ofBits (w.extractLsb' lo 4) = regField w lo := by
  apply Fin.ext
  rw [extractLsb'_eq_fieldOf]
  exact BitVec.toNat_ofNat ..

theorem rdOf_eq (w : Word) : rdOf w = regField w 12 := ofBits_extractLsb'_eq_regField w 12
theorem rmOf_eq (w : Word) : rmOf w = regField w 8 := ofBits_extractLsb'_eq_regField w 8
theorem rnOf_eq (w : Word) : rnOf w = regField w 4 := ofBits_extractLsb'_eq_regField w 4
theorem imm4Of_eq (w : Word) : imm4Of w = fieldOf w 4 4 := extractLsb'_eq_fieldOf w 4 4
theorem imm4hiOf_eq (w : Word) : imm4hiOf w = fieldOf w 12 4 := extractLsb'_eq_fieldOf w 12 4
theorem imm8Of_eq (w : Word) : imm8Of w = fieldOf w 4 8 := extractLsb'_eq_fieldOf w 4 8
theorem high8Of_eq (w : Word) : high8Of w = fieldOf w 8 8 := extractLsb'_eq_fieldOf w 8 8
theorem off10Of_eq (w : Word) : off10Of w = fieldOf w 4 10 := extractLsb'_eq_fieldOf w 4 10
theorem off12Of_eq (w : Word) : off12Of w = fieldOf w 4 12 := extractLsb'_eq_fieldOf w 4 12

/-- The condition code is the top two bits, by division (R88). -/
theorem ccOf_toNat (w : Word) : (ccOf w).toNat = w.toNat / 16384 := by
  rw [ccOf, extractLsb'_eq_fieldOf, fieldOf, BitVec.toNat_ofNat]
  have := w.isLt
  omega

/-- Settles O3: the low nibble selects the entry of the opcode map, the top two bits that of opcode 1, and each field is
the one by division. -/
theorem decodeReadsEveryField : Obligations.DecodeReadsEveryField := by
  intro w hw
  rw [decode_of_ne_haltWord hw]
  refine ⟨fun h => ?_, fun h hc => ?_, fun h hc => ?_, fun h hc => ?_, fun h hc => ?_, fun h => ?_, fun h => ?_,
    fun h => ?_, fun h => ?_, fun h => ?_, fun h => ?_, fun h => ?_, fun h => ?_, fun h => ?_, fun h => ?_, fun h => ?_,
    fun h => ?_, fun h => ?_, fun h => ?_⟩
  case refine_2 | refine_3 | refine_4 | refine_5 =>
    simp only [decodeOpcode, opcodeOf_toNat, h, decodeCond, ccOf_toNat, hc, off10Of_eq]
  all_goals
    simp only [decodeOpcode, opcodeOf_toNat, h, off12Of_eq, rdOf_eq, rmOf_eq, rnOf_eq, imm4Of_eq, imm4hiOf_eq,
      imm8Of_eq, high8Of_eq]

/-- Equal quotients give equal register fields. -/
theorem regField_congr {v w : Word} {lo : Nat} (h : v.toNat / 2 ^ lo % 16 = w.toNat / 2 ^ lo % 16) :
    regField v lo = regField w lo := Fin.ext h

/-- Settles O5: the words decode to one instruction up to the field `ign`, which no meaning looks at. -/
theorem ignoredBitsChangeNothing : Obligations.IgnoredBitsChangeNothing := by
  intro v w s hv hw h
  rw [decode_of_ne_haltWord hv, decode_of_ne_haltWord hw]
  rcases h with ⟨hvw, hop⟩ | ⟨hvw, hop⟩ | ⟨hopv, hop, hvw⟩
  · have hopv : v.toNat % 16 = 13 := by omega
    have hrm : rmOf v = rmOf w := by simpa only [rmOf_eq] using regField_congr (by omega)
    have hrn : rnOf v = rnOf w := by simpa only [rnOf_eq] using regField_congr (by omega)
    simp only [decodeOpcode, opcodeOf_toNat, hopv, hop, hrm, hrn]
    rfl
  · have hopv : v.toNat % 16 = 14 := by omega
    have hrn : rnOf v = rnOf w := by simpa only [rnOf_eq] using regField_congr (by omega)
    simp only [decodeOpcode, opcodeOf_toNat, hopv, hop, hrn]
    rfl
  · have hrd : rdOf v = rdOf w := by simpa only [rdOf_eq] using regField_congr (by omega)
    simp only [decodeOpcode, opcodeOf_toNat, hopv, hop, hrd]
    rfl

/-- Settles O6: the decoder evaluated at each word. -/
theorem sampleWordsDecode : Obligations.SampleWordsDecode := by
  unfold Obligations.SampleWordsDecode
  decide

end Sys2Proof
end

section
/-! PROOFS. How a step and a run go on or end (R34, R111, R113, R119, R121, R181, R201), and the invariant between two
cycles. -/

namespace Sys2Proof.Machine

/-! ### One step -/

/-- Settles O8: the hypotheses are readiness, and the word at the program counter is the one the fetch reads. -/
theorem stepRunsDecodedInstruction : Obligations.StepRunsDecodedInstruction := by
  rintro s t _ hrun hpc rfl hheld ht
  exact step_of_ready ⟨hrun, hpc, hheld⟩ ht

/-- A RUNNING machine whose program counter is outside memory takes the overrun (R111, R181). -/
theorem step_of_overrun {s : State} (hrun : s.status = .running) (hpc : 8192 ≤ s.pc.toNat) :
    step s = .fault s.overrun := by
  have hout : ¬ s.pc.toNat < memWords := Nat.not_lt.mpr hpc
  simp only [step, cycle, hrun, runCycle, hout, if_false]

/-- Settles O11: the overrun names register 15 and sets the status and one event. -/
theorem overrunEndsTheRun : Obligations.OverrunEndsTheRun := fun _ hrun hpc => step_of_overrun hrun hpc

theorem step_of_halted {s : State} (h : s.status = .halted) : step s = .next s := by simp only [step, cycle, h]

theorem step_of_aborted {s : State} (h : s.status = .aborted) : step s = .fault (.pcOutOfBounds s.pc s) := by
  simp only [step, cycle, h]

/-- Settles O13: neither status starts a cycle. -/
theorem endedMachineStaysEnded : Obligations.EndedMachineStaysEnded := fun _ => ⟨step_of_halted, step_of_aborted⟩

/-- A held input read is no step: the state is the one before the fetch (R62, log 12). -/
theorem step_of_held {s : State} (hrun : s.status = .running) (hpc : s.pc.toNat < memWords)
    (hheld : heldAt (decode s.fetchWord) s.advance = true) : step s = .next s := by
  simp only [step, cycle, hrun, runCycle, hpc, hheld, if_true]

/-- What a step of a RUNNING machine does inside memory: it answers a next state, HALTED if the word is the sentinel and
RUNNING otherwise (R113, R121). -/
theorem step_of_running {s : State} (hrun : s.status = .running) (hpc : s.pc.toNat < 8192) :
    ∃ t, step s = .next t ∧ t.status = if s.fetchWord = haltWord then .halted else .running := by
  cases hheld : heldAt (decode s.fetchWord) s.advance with
  | true =>
    have hw : s.fetchWord ≠ haltWord := fun hw => by simp [hw, decode_haltWord, heldAt] at hheld
    exact ⟨s, step_of_held hrun hpc hheld, by rw [if_neg hw, hrun]⟩
  | false =>
    obtain ⟨t, ht, -⟩ := exec_next (decode s.fetchWord) s.advance
    refine ⟨_, step_of_ready ⟨hrun, hpc, hheld⟩ ht, ?_⟩
    rw [status_debugHook, status_commit]
    split
    · next hw =>
      rw [hw, decode_haltWord] at ht
      exact Host.Outcome.next.inj ht ▸ rfl
    · next hw => rw [status_of_exec_decode hw ht, status_advance, hrun]

/-- Settles O12: `step_of_running` inside memory, `step_of_overrun` outside. -/
theorem runEndsExactlySo : Obligations.RunEndsExactlySo := by
  intro s hrun
  by_cases hpc : s.pc.toNat < 8192
  · obtain ⟨t, ht, hst⟩ := step_of_running hrun hpc
    rw [ht]
    refine ⟨?halts, ?faults, nofun, ?noAbort, nofun⟩
    case halts =>
      constructor
      · rintro ⟨_, ⟨⟩, hhalted⟩
        have hw : s.fetchWord = haltWord := of_not_not fun hne => by
          rw [hst, if_neg hne] at hhalted
          cases hhalted
        exact ⟨hpc, hw⟩
      · rintro ⟨-, hw⟩
        exact ⟨t, rfl, hst.trans (if_pos hw)⟩
    case faults => exact ⟨nofun, fun h => absurd hpc (Nat.not_lt.mpr h)⟩
    case noAbort =>
      rintro _ ⟨⟩
      rw [hst]
      split <;> exact nofun
  · have hout : 8192 ≤ s.pc.toNat := Nat.not_lt.mp hpc
    rw [step_of_overrun hrun hout]
    refine ⟨⟨nofun, fun h => absurd h.1 hpc⟩, ⟨fun _ => hout, fun _ => ⟨_, rfl⟩⟩, ?aborts, nofun, nofun⟩
    case aborts =>
      rintro _ _ ⟨⟩
      rfl

/-! ### The invariant -/

theorem wf_loadPair {s : State} (h : s.mem.wf) (p : Nat × Nat) : (s.loadPair p).mem.wf := by
  unfold State.loadPair
  split
  · next hp => exact write_wf h hp _
  · exact h

theorem wf_load {s : State} (h : s.mem.wf) (image : List (Nat × Nat)) : (s.load image).mem.wf := by
  induction image generalizing s with
  | nil => exact h
  | cons p image ih => exact ih (wf_loadPair h p)

/-- A pair changes nothing but memory (R212). -/
theorem loadPair_frame (s : State) (p : Nat × Nat) : s.loadPair p = { s with mem := (s.loadPair p).mem } := by
  unfold State.loadPair
  split <;> rfl

/-- The load changes nothing but memory (R212). -/
theorem load_frame (s : State) (image : List (Nat × Nat)) : s.load image = { s with mem := (s.load image).mem } := by
  induction image generalizing s with
  | nil => rfl
  | cons p image ih =>
    rw [load_cons, ih, loadPair_frame]

/-- Adding addresses of the array one by one keeps the canonical form. -/
theorem foldl_add_wf {l : AddrSet} (h : l.wf) {addresses : List Nat} (ha : ∀ a ∈ addresses, a < memWords) :
    AddrSet.wf (addresses.foldl AddrSet.add l) := by
  induction addresses generalizing l with
  | nil => exact h
  | cons a addresses ih =>
    rw [List.forall_mem_cons] at ha
    exact ih (add_wf h ha.1) ha.2

/-- The breakpoint set is canonical whatever addresses are supplied (R193). -/
theorem breakpointSet_wf (addresses : List Nat) : (breakpointSet addresses).wf :=
  foldl_add_wf ⟨.nil, nofun⟩ fun _ ha => of_decide_eq_true (List.mem_filter.mp ha).2

theorem reset_inv : State.reset.Inv := by decide

/-- What is loaded before the first cycle, over the state after reset (R211). -/
theorem boot_eq (image : List (Nat × Nat)) (addresses : List Nat) :
    State.boot image addresses =
      { State.reset with mem := (State.reset.load image).mem, breakpoints := breakpointSet addresses } := by
  rw [State.boot, load_frame]
  rfl

/-- Settles O57: the load keeps memory canonical and changes nothing else, and the breakpoint set is built canonical. -/
theorem invariantAtReset : Obligations.InvariantAtReset := by
  refine ⟨reset_inv, fun image addresses => ?_⟩
  obtain ⟨hmem, hacc, -, hpc⟩ := reset_inv
  rw [boot_eq]
  exact ⟨wf_load hmem image, hacc, breakpointSet_wf addresses, hpc⟩

/-- What a handler may change of memory and the address sets keeps them canonical. -/
theorem HandlerFrame.wf {s t : State} (h : HandlerFrame s t) (hmem : s.mem.wf) (hacc : s.accessed.wf)
    (hbp : s.breakpoints.wf) : t.mem.wf ∧ t.accessed.wf ∧ t.breakpoints.wf := by
  refine ⟨?_, ?_, h.breakpoints ▸ hbp⟩
  · rcases h.mem with heq | ⟨a, v, ha, heq⟩
    · rwa [heq]
    · rw [heq]; exact write_wf hmem ha v
  · rcases h.accessed with heq | ⟨a, ha, heq⟩
    · rwa [heq]
    · rw [heq]; exact add_wf hacc ha

/-- A step that answers a next state completes a cycle, or answers the same state (R62, R119; logs 11 and 12). -/
theorem step_next_cases {s t : State} (h : step s = .next t) :
    (s.ready ∧ ∃ u, exec (decode s.fetchWord) s.advance = .next u ∧ HandlerFrame s.advance u ∧
      t = u.commit.debugHook s.pc.toNat) ∨ t = s := by
  rcases step_cases s with ⟨hr, u, hu, hframe, hs⟩ | ⟨-, -, -, hs⟩ | ⟨-, hs⟩ | ⟨-, -, hs⟩ | ⟨-, hs⟩
  · exact .inl ⟨hr, u, hu, hframe, Host.Outcome.next.inj (h.symm.trans hs)⟩
  · exact .inr (Host.Outcome.next.inj (h.symm.trans hs))
  · exact .inr (Host.Outcome.next.inj (h.symm.trans hs))
  · exact nomatch h.symm.trans hs
  · exact nomatch h.symm.trans hs

/-- Settles O58: a completed cycle is a handler's change, the commit and the hook; any other next state is the state
itself. -/
theorem stepKeepsInvariant : Obligations.StepKeepsInvariant := by
  intro s t hinv hstep
  rcases step_next_cases hstep with ⟨-, u, -, hframe, rfl⟩ | rfl
  · obtain ⟨hmem, hacc, hbp, -⟩ := hinv
    simpa [State.Inv] using hframe.wf hmem hacc hbp
  · exact hinv

/-! ### Runs -/

theorem abortAt_inv {s : State} (h : s.Inv) : s.abortAt.Inv := h

/-- From a state that is not ABORTED a step goes on to another that is not, or takes the overrun (R34, R121). -/
theorem step_goes_on_or_overruns {s : State} (h : s.status ≠ .aborted) :
    (∃ t, step s = .next t ∧ t.status ≠ .aborted) ∨ (step s = .fault s.overrun ∧ 8192 ≤ s.pc.toNat) := by
  cases hst : s.status with
  | aborted => exact absurd hst h
  | halted => exact .inl ⟨s, step_of_halted hst, h⟩
  | running =>
    by_cases hpc : s.pc.toNat < 8192
    · obtain ⟨t, ht, htst⟩ := step_of_running hst hpc
      refine .inl ⟨t, ht, ?_⟩
      rw [htst]
      split <;> exact nofun
    · exact .inr ⟨step_of_overrun hst (Nat.not_lt.mp hpc), Nat.not_lt.mp hpc⟩

/-- A run whose first step goes on is the rest of the run from there. -/
theorem run_succ_of_next {M : Host.Core} {s t : M.State} (h : M.step s = .next t) (n : Nat) :
    M.run (n + 1) s = M.run n t := by
  simp only [Host.Core.run, h]

/-- A run whose first step faults stops there. -/
theorem run_succ_of_fault {M : Host.Core} {s : M.State} {f : M.Fault} (h : M.step s = .fault f) (n : Nat) :
    M.run (n + 1) s = .fault f := by
  simp only [Host.Core.run, h]

/-- Settles O59, by induction on the number of steps. -/
theorem runsStopOnlyByOverrun : Obligations.RunsStopOnlyByOverrun := by
  intro n
  induction n with
  | zero => exact fun s hinv hst => ⟨hinv, hst⟩
  | succ n ih =>
    intro s hinv hst
    rcases step_goes_on_or_overruns hst with ⟨t, ht, htst⟩ | ⟨hfault, hpc⟩
    · rw [run_succ_of_next (M := core) ht]
      exact ih t (stepKeepsInvariant s t hinv ht) htst
    · rw [run_succ_of_fault (M := core) hfault]
      exact ⟨abortAt_inv hinv, rfl, rfl, hpc⟩

end Sys2Proof.Machine
end

section
/-! PROOFS. The debug machinery is invisible to a program (R200 of spec/60_exceptions.md): every operation commutes with
leaving out the breakpoint set, `accessed` and the diagnostic stream. -/

namespace Sys2Proof.Machine

/-! ### The operations of the state -/

section
variable (s : State)

@[simp] theorem pc_withoutDebug : s.withoutDebug.pc = s.pc := rfl
@[simp] theorem fetchWord_withoutDebug : s.withoutDebug.fetchWord = s.fetchWord := rfl
@[simp] theorem status_withoutDebug : s.withoutDebug.status = s.status := rfl
@[simp] theorem effectiveAddress_withoutDebug (rm : Reg) (k : BitVec 4) :
    s.withoutDebug.effectiveAddress rm k = s.effectiveAddress rm k := rfl

theorem withoutDebug_advance : s.advance.withoutDebug = s.withoutDebug.advance := rfl
@[simp] theorem withoutDebug_debugHook (a : Nat) : (s.debugHook a).withoutDebug = s.withoutDebug := by
  rw [debugHook_eq]
  rfl

end

/-! ### The ports -/

/-- At end of input the character port answers with its free value, if there is one (D20). -/
theorem charIn_atEnd (s : State) (h : s.input = []) (he : s.inputEnded = true) :
    s.charIn = (Config.charInAtEnd s.draws).map fun v => (v, s.countDraw.emit (.inChar v)) := by
  simp [State.charIn, h, he, State.answerChar]

/-- At end of input the integer port answers with its free value, if there is one (U3). -/
theorem intIn_atEnd (s : State) (h : s.input = []) (he : s.inputEnded = true) :
    s.intIn = (Config.intInAtEnd s.draws).map fun n => (BitVec.ofInt 16 n, s.countDraw.emit (.inInt n)) := by
  simp [State.intIn, h, he, State.answerInt]

/-- What an input port delivers: the value returned, its echo, the input left and the draws made. -/
abbrev Delivery := Word × Event × List InputItem × Nat

/-- What the character port delivers depends on the input and the draws alone (R58). -/
def charDelivery (input : List InputItem) (ended : Bool) (draws : Nat) : Option Delivery :=
  match input with
  | item :: rest => some (item.code.setWidth 16, .inChar (item.code.setWidth 16), rest, draws)
  | [] => if ended then (Config.charInAtEnd draws).map fun v => (v, .inChar v, input, draws + 1) else none

/-- What the integer port delivers depends on the input and the draws alone (R59). -/
def intDelivery (input : List InputItem) (ended : Bool) (draws : Nat) : Option Delivery :=
  match input with
  | item :: rest => some (BitVec.ofInt 16 (item.number.getD 0), .inInt (item.number.getD 0), rest, draws)
  | [] => if ended then (Config.intInAtEnd draws).map fun n => (BitVec.ofInt 16 n, .inInt n, input, draws + 1) else none

/-- The answer of a port with a delivery: the value and the state that has taken it. -/
def State.deliver (s : State) : Delivery → Word × State
  | (v, e, input, draws) => (v, { s with input := input, draws := draws, diag := s.diag ++ [e] })

theorem charIn_eq (s : State) : s.charIn = (charDelivery s.input s.inputEnded s.draws).map s.deliver := by
  cases hi : s.input with
  | cons item rest => exact charIn_item s hi
  | nil =>
    cases he : s.inputEnded with
    | true =>
      rw [charIn_atEnd s hi he]
      simp [charDelivery, hi, State.deliver, State.emit, State.countDraw, Function.comp_def]
    | false => exact charIn_waits s hi he

theorem intIn_eq (s : State) : s.intIn = (intDelivery s.input s.inputEnded s.draws).map s.deliver := by
  cases hi : s.input with
  | cons item rest => exact intIn_item s hi
  | nil =>
    cases he : s.inputEnded with
    | true =>
      rw [intIn_atEnd s hi he]
      simp [intDelivery, hi, State.deliver, State.emit, State.countDraw, Function.comp_def]
    | false => exact intIn_waits s hi he

/-- What a read answers, without what only the debug hook shows. -/
def answerWithoutDebug (o : Option (Word × State)) : Option (Word × State) := o.map fun p => (p.1, p.2.withoutDebug)

theorem charIn_withoutDebug (s : State) : answerWithoutDebug s.withoutDebug.charIn = answerWithoutDebug s.charIn := by
  rw [charIn_eq, charIn_eq s, answerWithoutDebug, answerWithoutDebug, Option.map_map, Option.map_map]
  rfl

theorem intIn_withoutDebug (s : State) : answerWithoutDebug s.withoutDebug.intIn = answerWithoutDebug s.intIn := by
  rw [intIn_eq, intIn_eq s, answerWithoutDebug, answerWithoutDebug, Option.map_map, Option.map_map]
  rfl

/-! ### The router, the stack and the jumps -/

theorem memRead_withoutDebug (s : State) (a : Word) :
    answerWithoutDebug (s.withoutDebug.memRead a) = answerWithoutDebug (s.memRead a) := by
  unfold State.memRead
  split
  · exact charIn_withoutDebug s
  split
  · exact intIn_withoutDebug s
  split <;> rfl

theorem readHeld_withoutDebug (s : State) (a : Word) : s.withoutDebug.readHeld a = s.readHeld a := by
  simpa [answerWithoutDebug, State.readHeld] using congrArg Option.isNone (memRead_withoutDebug s a)

theorem memWrite_withoutDebug (s : State) (a v : Word) :
    (s.withoutDebug.memWrite a v).withoutDebug = (s.memWrite a v).withoutDebug := by
  unfold State.memWrite
  split
  · rfl
  split
  · rfl
  split <;> rfl

theorem stackWrite_withoutDebug (s : State) (a v : Word) :
    (s.withoutDebug.stackWrite a v).withoutDebug = (s.stackWrite a v).withoutDebug := by
  unfold State.stackWrite
  split <;> rfl

theorem jumpIf_withoutDebug (s : State) (taken : Bool) {n : Nat} (off : BitVec n) :
    (s.withoutDebug.jumpIf taken off).withoutDebug = (s.jumpIf taken off).withoutDebug := by
  cases taken <;> rfl

/-! ### The handlers, the cycle and runs -/

theorem execLdr_withoutDebug (rd rm : Reg) (k : BitVec 4) (s : State) :
    outcomeWithoutDebug (execLdr rd rm k s.withoutDebug) = outcomeWithoutDebug (execLdr rd rm k s) := by
  have hread := memRead_withoutDebug s (s.effectiveAddress rm k)
  unfold execLdr
  rw [effectiveAddress_withoutDebug]
  cases hs : s.memRead (s.effectiveAddress rm k) with
  | none =>
    rw [hs] at hread
    rw [Option.map_eq_none_iff.mp hread]
    rfl
  | some p =>
    rw [hs] at hread
    obtain ⟨q, hq, heq⟩ := Option.map_eq_some_iff.mp hread
    obtain ⟨hval, hstate⟩ := Prod.mk.inj heq
    rw [hq]
    show Host.Outcome.next (q.2.withoutDebug.setReg rd q.1) = .next (p.2.withoutDebug.setReg rd p.1)
    rw [hval, hstate]

theorem execPop_withoutDebug (rd : Reg) (ign : BitVec 8) (s : State) :
    outcomeWithoutDebug (execPop rd ign s.withoutDebug) = outcomeWithoutDebug (execPop rd ign s) := by
  unfold execPop
  simp only [stackTouch_eq]
  split <;> rfl

/-- No handler's outcome shows a difference in what only the debug hook shows (R200). -/
theorem exec_withoutDebug (i : Instr) (s : State) :
    outcomeWithoutDebug (exec i s.withoutDebug) = outcomeWithoutDebug (exec i s) := by
  cases i with
  | jmp off | jeq off | jne off | jlt off | jge off => exact congrArg Host.Outcome.next (jumpIf_withoutDebug s _ off)
  | ldr rd rm k => exact execLdr_withoutDebug rd rm k s
  | str k rm rn => exact congrArg Host.Outcome.next (memWrite_withoutDebug s _ _)
  | push ign rn => exact congrArg Host.Outcome.next (stackWrite_withoutDebug (s.setReg spReg s.pushedSp) _ _)
  | pop rd ign => exact execPop_withoutDebug rd ign s
  | halt | mov | add | addi | sub | subi | and | or | shr | shl | cmp => rfl

theorem heldAt_withoutDebug (i : Instr) (s : State) : heldAt i s.withoutDebug = heldAt i s := by
  cases i with
  | ldr rd rm k => exact readHeld_withoutDebug s _
  | _ => rfl

/-- The commit and the hook act on the outcome as it is without what only the hook shows (R116, R117). -/
theorem finish_outcomeWithoutDebug (a : Nat) (o : Host.Outcome State Fault Refusal) :
    outcomeWithoutDebug (finish a (outcomeWithoutDebug o)) = outcomeWithoutDebug (finish a o) := by
  cases o with
  | next t =>
    show Host.Outcome.next (t.withoutDebug.commit.debugHook a).withoutDebug = .next (t.commit.debugHook a).withoutDebug
    rw [withoutDebug_debugHook, withoutDebug_debugHook]
    rfl
  | fault f => cases f; rfl
  | refused r => rfl

theorem runCycle_withoutDebug (s : State) :
    outcomeWithoutDebug (runCycle s.withoutDebug) = outcomeWithoutDebug (runCycle s) := by
  have hheld := heldAt_withoutDebug (decode s.fetchWord) s.advance
  have hexec := congrArg (fun o => outcomeWithoutDebug (finish s.pc.toNat o))
    (exec_withoutDebug (decode s.fetchWord) s.advance)
  simp only [withoutDebug_advance, finish_outcomeWithoutDebug] at hheld hexec
  simp only [runCycle, pc_withoutDebug, fetchWord_withoutDebug, hheld]
  split
  · split
    · rfl
    · exact hexec
  · rfl

/-- One step shows no difference in what only the debug hook shows (R200). -/
theorem step_withoutDebug (s : State) : outcomeWithoutDebug (step s.withoutDebug) = outcomeWithoutDebug (step s) := by
  simp only [step, cycle, status_withoutDebug]
  split
  · exact runCycle_withoutDebug s
  · rfl
  · rfl

/-- Outcomes that show no difference are of one kind. -/
theorem of_outcomeWithoutDebug_eq {o p : Host.Outcome State Fault Refusal}
    (h : outcomeWithoutDebug o = outcomeWithoutDebug p) :
    (∃ s t, o = .next s ∧ p = .next t ∧ s.withoutDebug = t.withoutDebug) ∨
    (∃ f g, o = .fault f ∧ p = .fault g ∧ f.withoutDebug = g.withoutDebug) ∨
    (∃ r, o = .refused r ∧ p = .refused r) :=
  match o, p, h with
  | .next s, .next t, h => .inl ⟨s, t, rfl, rfl, Host.Outcome.next.inj h⟩
  | .fault f, .fault g, h => .inr (.inl ⟨f, g, rfl, rfl, Host.Outcome.fault.inj h⟩)
  | .refused r, .refused _, h => .inr (.inr ⟨r, rfl, h.symm⟩)

/-- A run whose first step is refused stops there. -/
theorem run_succ_of_refused {M : Host.Core} {s : M.State} {r : M.Refusal} (h : M.step s = .refused r) (n : Nat) :
    M.run (n + 1) s = .refused r := by
  simp only [Host.Core.run, h]

/-- Settles O60, by induction on the number of steps. -/
theorem debugMachineryIsInvisible : Obligations.DebugMachineryIsInvisible := by
  intro n
  induction n with
  | zero => exact fun s t h => congrArg Host.Outcome.next h
  | succ n ih =>
    intro s t h
    have hstep : outcomeWithoutDebug (step s) = outcomeWithoutDebug (step t) := by
      rw [← step_withoutDebug s, h, step_withoutDebug t]
    rcases of_outcomeWithoutDebug_eq hstep with ⟨s', t', hs, ht, heq⟩ | ⟨f, g, hs, ht, heq⟩ | ⟨r, hs, ht⟩
    · rw [run_succ_of_next (M := core) hs, run_succ_of_next (M := core) ht]
      exact ih s' t' heq
    · rw [run_succ_of_fault (M := core) hs, run_succ_of_fault (M := core) ht]
      exact congrArg Host.Outcome.fault heq
    · rw [run_succ_of_refused (M := core) hs, run_succ_of_refused (M := core) ht]

end Sys2Proof.Machine
end

section
/-! PROOFS. MOV, the arithmetic, the logic, the shifts and the compare (spec/42_memory_move.md section 3,
spec/43_arithmetic.md, spec/44_logic_shift_compare.md). -/

namespace Sys2Proof.Machine

/-! ### Writing a result -/

section
variable (s : State) (rd : Reg) (v : Word) (c : Bool)

@[simp] theorem reg_writeResult_same : (s.writeResult rd v c).reg rd = v := reg_setReg_same s rd v

theorem reg_writeResult_of_ne {r : Reg} (h : r ≠ rd) : (s.writeResult rd v c).reg r = s.reg r :=
  reg_setReg_of_ne s h.symm v

@[simp] theorem z_writeResult : (s.writeResult rd v c).z = zeroFlag v := rfl
@[simp] theorem c_writeResult : (s.writeResult rd v c).c = c := rfl

/-- Z is 1 exactly when the result written is 0 (R31, R154). -/
theorem z_writeResult_iff : (s.writeResult rd v c).z = true ↔ (s.writeResult rd v c).reg rd = 0 := by
  rw [reg_writeResult_same]
  exact decide_eq_true_iff

end

/-- A result written, field by field. -/
theorem writeResult_eq (s : State) (rd : Reg) {v v' : Word} {c : Bool} {p q : Prop} [Decidable p] [Decidable q]
    (hv : v = v') (hz : v' = 0 ↔ p) (hc : c = decide q) :
    s.writeResult rd v c = { s with regs := s.regs.set rd v', z := decide p, c := decide q } := by
  subst hv hc
  have hzero : zeroFlag v = decide p := decide_eq_decide.mpr hz
  rw [← hzero]
  rfl

/-! ### Immediates -/

/-- The 4-bit immediate is unsigned (R83). -/
@[simp] theorem zextImm4_toNat (k : BitVec 4) : (zextImm4 k).toNat = k.toNat :=
  BitVec.toNat_setWidth_of_le (by decide)

theorem zextImm4_eq (k : BitVec 4) : zextImm4 k = BitVec.ofNat 16 k.toNat := (BitVec.ofNat_toNat 16 k).symm

theorem exec_mov (rd : Reg) (b : BitVec 8) (s : State) : exec (.mov rd b) s = .next (s.setReg rd (b.setWidth 16)) := rfl

/-- Settles O34: MOV's immediate is zero-extended and no flag is written. -/
theorem movWritesImmediate : Obligations.MovWritesImmediate := by
  intro rd b s
  rw [exec_mov, ← BitVec.ofNat_toNat]
  rfl

/-- Settles O35: the signed reading takes 256 away from the immediates of 0x80 and above. -/
theorem movReadingsAgreeBelow80 : Obligations.MovReadingsAgreeBelow80 := by
  intro b
  have hb : b.toNat < 256 := b.isLt
  simp only [movValue, if_true, Bool.false_eq_true, if_false, toInt_eq_of_half (half := 128) rfl b, ← BitVec.toNat_inj,
    BitVec.toNat_ofInt, BitVec.toNat_setWidth]
  split <;> omega

/-! ### Sums and differences -/

@[simp] theorem toNat_addResult (a b : Word) : (addResult a b).toNat = (a.toNat + b.toNat) % 65536 :=
  BitVec.toNat_ofNat ..

theorem addResult_eq (a b : Word) : addResult a b = a + b := rfl

/-- The difference mod 2^16, without a negative number (R154). -/
@[simp] theorem toNat_subResult (a b : Word) : (subResult a b).toNat = (a.toNat + 65536 - b.toNat) % 65536 := by
  have hb := b.isLt
  rw [subResult, BitVec.toNat_ofInt]
  omega

theorem subResult_eq (a b : Word) : subResult a b = a - b := by
  have hb := b.isLt
  apply BitVec.eq_of_toNat_eq
  rw [toNat_subResult, BitVec.toNat_sub]
  omega

theorem add_eq_zero_iff_mod (a b : Word) : a + b = 0 ↔ (a.toNat + b.toNat) % 65536 = 0 := by
  rw [← BitVec.toNat_inj, BitVec.toNat_add]
  rfl

theorem writeResult_add (s : State) (rd : Reg) (a b : Word) :
    s.writeResult rd (addResult a b) (addCarry a b) = { s with
      regs := s.regs.set rd (a + b), z := decide ((a.toNat + b.toNat) % 65536 = 0),
      c := decide (65535 < a.toNat + b.toNat) } :=
  writeResult_eq s rd (addResult_eq a b) (add_eq_zero_iff_mod a b) rfl

theorem writeResult_sub (s : State) (rd : Reg) (a b : Word) :
    s.writeResult rd (subResult a b) (subBorrow a b) = { s with
      regs := s.regs.set rd (a - b), z := decide (a = b), c := decide (a.toNat < b.toNat) } :=
  writeResult_eq s rd (subResult_eq a b) sub_eq_zero rfl

theorem exec_add (rd rm rn : Reg) (s : State) : exec (.add rd rm rn) s =
    .next (s.writeResult rd (addResult (s.reg rm) (s.reg rn)) (addCarry (s.reg rm) (s.reg rn))) := rfl

theorem exec_addi (rd rm : Reg) (k : BitVec 4) (s : State) : exec (.addi rd rm k) s =
    .next (s.writeResult rd (addResult (s.reg rm) (zextImm4 k)) (addCarry (s.reg rm) (zextImm4 k))) := rfl

theorem exec_sub (rd rm rn : Reg) (s : State) : exec (.sub rd rm rn) s =
    .next (s.writeResult rd (subResult (s.reg rm) (s.reg rn)) (subBorrow (s.reg rm) (s.reg rn))) := rfl

theorem exec_subi (rd rm : Reg) (k : BitVec 4) (s : State) : exec (.subi rd rm k) s =
    .next (s.writeResult rd (subResult (s.reg rm) (zextImm4 k)) (subBorrow (s.reg rm) (zextImm4 k))) := rfl

/-- Settles O37: ADD and ADDI write one sum, of a register or of the immediate. -/
theorem additionResult : Obligations.AdditionResult := by
  refine fun rd rm rn k s => ⟨?_, ?_⟩
  · rw [exec_add, writeResult_add]
  · rw [exec_addi, writeResult_add, ← zextImm4_eq]
    simp only [zextImm4_toNat]

theorem eq_zextImm4_iff (a : Word) (k : BitVec 4) : a = zextImm4 k ↔ a.toNat = k.toNat := by
  rw [← BitVec.toNat_inj, zextImm4_toNat]

/-- Settles O38: SUB and SUBI write one difference, of a register or of the immediate. -/
theorem subtractionResult : Obligations.SubtractionResult := by
  refine fun rd rm rn k s => ⟨?_, ?_⟩
  · rw [exec_sub, writeResult_sub]
  · rw [exec_subi, writeResult_sub, ← zextImm4_eq]
    simp only [eq_zextImm4_iff, zextImm4_toNat]

/-! ### Logic and shifts -/

theorem exec_and (rd rm rn : Reg) (s : State) :
    exec (.and rd rm rn) s = .next (s.writeResult rd (s.reg rm &&& s.reg rn) false) := rfl

theorem exec_or (rd rm rn : Reg) (s : State) :
    exec (.or rd rm rn) s = .next (s.writeResult rd (s.reg rm ||| s.reg rn) false) := rfl

/-- Settles O40: the result is the bitwise one and C is 0. -/
theorem logicResult : Obligations.LogicResult := by
  refine fun rd rm rn s => ⟨?_, ?_⟩
  · rw [exec_and]
    exact congrArg Host.Outcome.next (writeResult_eq s rd (q := False) rfl Iff.rfl rfl)
  · rw [exec_or]
    exact congrArg Host.Outcome.next (writeResult_eq s rd (q := False) rfl BitVec.or_eq_zero_iff rfl)

@[simp] theorem toNat_shrResult (a : Word) (k : BitVec 4) : (shrResult a k).toNat = a.toNat / 2 ^ k.toNat :=
  (BitVec.toNat_ofNat ..).trans (Nat.mod_eq_of_lt (lt_of_le_of_lt (Nat.div_le_self ..) a.isLt))

theorem shrResult_eq (a : Word) (k : BitVec 4) : shrResult a k = a >>> k.toNat := by
  apply BitVec.eq_of_toNat_eq
  rw [toNat_shrResult, BitVec.toNat_ushiftRight, Nat.shiftRight_eq_div_pow]

theorem ushiftRight_eq_zero_iff (a : Word) (n : Nat) : a >>> n = 0 ↔ a.toNat < 2 ^ n := by
  rw [← BitVec.toNat_inj, BitVec.toNat_ushiftRight, Nat.shiftRight_eq_div_pow]
  exact Nat.div_eq_zero_iff_lt (Nat.two_pow_pos n)

/-- C of SHR by division: the bit below the ones that stay (R162). -/
theorem shrCarry_eq (a : Word) (k : BitVec 4) :
    shrCarry a k = decide (k.toNat ≠ 0 ∧ a.toNat / 2 ^ (k.toNat - 1) % 2 = 1) := by
  unfold shrCarry
  split
  · next h => simp [h]
  · next h => simp [h, BitVec.getLsbD, Nat.testBit_eq_decide_div_mod_eq]

theorem exec_shr (rd rm : Reg) (k : BitVec 4) (s : State) :
    exec (.shr rd rm k) s = .next (s.writeResult rd (shrResult (s.reg rm) k) (shrCarry (s.reg rm) k)) := rfl

/-- Settles O41: the shift as a quotient, its last bit out as a bit of the quotient before. -/
theorem shiftRightResult : Obligations.ShiftRightResult := by
  intro rd rm k s
  rw [exec_shr]
  exact congrArg Host.Outcome.next
    (writeResult_eq s rd (shrResult_eq _ k) (ushiftRight_eq_zero_iff _ _) (shrCarry_eq _ k))

@[simp] theorem toNat_shlResult (a : Word) (k : BitVec 4) :
    (shlResult a k).toNat = a.toNat * 2 ^ k.toNat % 65536 := BitVec.toNat_ofNat ..

theorem shlResult_eq (a : Word) (k : BitVec 4) : shlResult a k = a <<< k.toNat := by
  apply BitVec.eq_of_toNat_eq
  rw [toNat_shlResult, BitVec.toNat_shiftLeft, Nat.shiftLeft_eq]

/-- A bit is lost by a shift of `k` exactly when one of the top `k` bits is 1 (R163). -/
theorem shlCarry_eq (a : Word) (k : BitVec 4) : shlCarry a k = decide (a.toNat / 2 ^ (16 - k.toNat) ≠ 0) := by
  have hk : k.toNat ≤ 16 := k.isLt.le.trans (by decide)
  have hsplit : 2 ^ (16 - k.toNat) * 2 ^ k.toNat = 65536 := by
    rw [← Nat.pow_add, Nat.sub_add_cancel hk]
  apply decide_eq_decide.mpr
  calc a.toNat * 2 ^ k.toNat > 65535
      ↔ 2 ^ (16 - k.toNat) * 2 ^ k.toNat ≤ a.toNat * 2 ^ k.toNat := by rw [hsplit]; rfl
    _ ↔ 2 ^ (16 - k.toNat) ≤ a.toNat := Nat.mul_le_mul_right_iff (Nat.two_pow_pos _)
    _ ↔ a.toNat / 2 ^ (16 - k.toNat) ≠ 0 := by
      rw [Ne, Nat.div_eq_zero_iff_lt (Nat.two_pow_pos _), Nat.not_lt]

theorem exec_shl (rd rm : Reg) (k : BitVec 4) (s : State) :
    exec (.shl rd rm k) s = .next (s.writeResult rd (shlResult (s.reg rm) k) (shlCarry (s.reg rm) k)) := rfl

/-- Settles O42: the shift as a product, the bits lost as the quotient by what fits. -/
theorem shiftLeftResult : Obligations.ShiftLeftResult := by
  intro rd rm k s
  rw [exec_shl]
  exact congrArg Host.Outcome.next (writeResult_eq s rd (shlResult_eq _ k) Iff.rfl (shlCarry_eq _ k))

/-! ### The compare -/

theorem cmpZero_eq (a b : Word) : cmpZero a b = decide (a = b) := decide_eq_decide.mpr BitVec.toNat_inj

theorem exec_cmp (ign : BitVec 4) (rm rn : Reg) (s : State) : exec (.cmp ign rm rn) s =
    .next (s.setFlags (cmpZero (s.reg rm) (s.reg rn)) (cmpLess (s.reg rm) (s.reg rn))) := rfl

/-- Settles O43: equality of words is equality of their numbers. -/
theorem compareResult : Obligations.CompareResult := by
  intro ign rm rn s
  rw [exec_cmp, cmpZero_eq]
  rfl

theorem zeroFlag_subResult (a b : Word) : zeroFlag (subResult a b) = cmpZero a b := by
  rw [cmpZero_eq, subResult_eq]
  exact decide_eq_decide.mpr sub_eq_zero

/-- Equal operands are not less, so the two flags of a difference are never both 1 (R164). -/
theorem not_cmpZero_and_cmpLess (a b : Word) : ¬ (cmpZero a b = true ∧ cmpLess a b = true) := by
  simp only [cmpZero, cmpLess, decide_eq_true_eq]
  omega

/-- Settles O44: a difference is 0 exactly when its operands are equal, and the borrow is the comparison. -/
theorem compareFlagsAreSubtractFlags : Obligations.CompareFlagsAreSubtractFlags := by
  intro rd rm rn k ign s t u v ht hu hv
  rw [exec_cmp] at ht
  rw [exec_sub] at hu
  rw [exec_subi] at hv
  cases ht
  cases hu
  cases hv
  rw [z_writeResult, z_writeResult, zeroFlag_subResult, zeroFlag_subResult]
  exact ⟨rfl, rfl, not_cmpZero_and_cmpLess _ _, not_cmpZero_and_cmpLess _ _⟩

/-! ### The results as numbers, and the frame -/

theorem addCarry_iff (a b : Word) : addCarry a b = true ↔ (a.toNat + b.toNat) / 65536 = 1 := by
  have ha := a.isLt
  have hb := b.isLt
  rw [addCarry, decide_eq_true_iff]
  omega

theorem subBorrow_iff (a b : Word) : subBorrow a b = true ↔ a.toNat < b.toNat := decide_eq_true_iff

/-- Settles O39: each instruction writes its result with Z by `z_writeResult_iff`, the results as numbers. -/
theorem arithmeticLaws : Obligations.ArithmeticLaws := by
  refine fun rd rm rn k s => ⟨⟨_, exec_add .., ?_, ?_, z_writeResult_iff ..⟩,
    ⟨_, exec_addi .., ?_, ?_, z_writeResult_iff ..⟩, ⟨_, exec_sub .., ?_, ?_, z_writeResult_iff ..⟩,
    ⟨_, exec_subi .., ?_, ?_, z_writeResult_iff ..⟩, ⟨_, exec_shl .., ?_, z_writeResult_iff ..⟩,
    ⟨_, exec_shr .., ?_, z_writeResult_iff ..⟩⟩
  all_goals simp [addCarry_iff, subBorrow_iff]

/-- The eight instructions that compute a result write it, its flags and nothing else (R30). -/
theorem exec_eq_writeResult {rd rm rn : Reg} {k : BitVec 4} {i : Instr}
    (hi : i ∈ [.add rd rm rn, .addi rd rm k, .sub rd rm rn, .subi rd rm k, .and rd rm rn, .or rd rm rn, .shr rd rm k,
      .shl rd rm k]) (s : State) : ∃ v c, exec i s = .next (s.writeResult rd v c) := by
  simp only [List.mem_cons, List.not_mem_nil, or_false] at hi
  rcases hi with rfl | rfl | rfl | rfl | rfl | rfl | rfl | rfl <;> exact ⟨_, _, rfl⟩

/-- Settles O45: eight of the nine write a result, and MOV a register. -/
theorem registerInstructionsFrame : Obligations.RegisterInstructionsFrame := by
  intro rd rm rn k b i s t hi ht
  by_cases hmov : i = .mov rd b
  · subst hmov
    rw [exec_mov] at ht
    cases ht
    exact ⟨fun r hr => reg_setReg_of_ne s hr.symm _, fun _ => rfl, rfl, rfl, rfl, rfl, rfl, rfl, rfl, rfl,
      fun _ => ⟨rfl, rfl⟩⟩
  · obtain ⟨v, c, hv⟩ := exec_eq_writeResult (by simpa [hmov] using hi) s
    rw [hv] at ht
    cases ht
    exact ⟨fun r hr => reg_writeResult_of_ne s rd v c hr, fun _ => rfl, rfl, rfl, rfl, rfl, rfl, rfl, rfl, rfl,
      fun h => absurd h hmov⟩

end Sys2Proof.Machine
end

section
/-! PROOFS. LDR and STR at every address (spec/42_memory_move.md section 2, spec/20_memory.md sections 2 and 3), and the
input reads of a cycle. -/

namespace Sys2Proof.Machine

/-! ### LDR -/

/-- The effective address as a number (R143). -/
theorem effectiveAddress_toNat (s : State) (rm : Reg) (k : BitVec 4) :
    (s.effectiveAddress rm k).toNat = ((s.reg rm).toNat + k.toNat) % 65536 := BitVec.toNat_ofNat ..

/-- An answered read is a load of the value answered (R140). -/
theorem exec_ldr_of_memRead {rd rm : Reg} {k : BitVec 4} {s t : State} {a v : Word} (ha : s.effectiveAddress rm k = a)
    (h : s.memRead a = some (v, t)) : exec (.ldr rd rm k) s = .next (t.setReg rd v) := by
  show execLdr rd rm k s = _
  rw [execLdr, ha, h]

/-- A held read leaves the state (R62, log 12). -/
theorem exec_ldr_of_held {rd rm : Reg} {k : BitVec 4} {s : State} {a : Word} (ha : s.effectiveAddress rm k = a)
    (h : s.memRead a = none) : exec (.ldr rd rm k) s = .next s := by
  show execLdr rd rm k s = _
  rw [execLdr, ha, h]

/-- Settles O25: the router's two cases apart from the input ports. -/
theorem ldrReadsMemoryOrZero : Obligations.LdrReadsMemoryOrZero := by
  intro rd rm k s ea hea hchar hint
  rw [← effectiveAddress_toNat] at hea
  subst hea
  split
  · next h => exact exec_ldr_of_memRead rfl (memRead_memory s h)
  · next h =>
    exact exec_ldr_of_memRead rfl
      (memRead_elsewhere s h (fun e => hchar (congrArg BitVec.toNat e)) fun e => hint (congrArg BitVec.toNat e))

/-- LDR of the character port with an item available (R58). -/
theorem exec_ldr_charIn {rd rm : Reg} {k : BitVec 4} {s : State} {item : InputItem} {rest : List InputItem}
    (ha : s.effectiveAddress rm k = ioCharIn) (hi : s.input = item :: rest) :
    exec (.ldr rd rm k) s = .next
      (((s.setInput rest).emit (.inChar (item.code.setWidth 16))).setReg rd (item.code.setWidth 16)) :=
  exec_ldr_of_memRead ha ((memRead_charIn s).trans (charIn_item s hi))

/-- LDR of the integer port with an item available (R59). -/
theorem exec_ldr_intIn {rd rm : Reg} {k : BitVec 4} {s : State} {item : InputItem} {rest : List InputItem}
    (ha : s.effectiveAddress rm k = ioIntIn) (hi : s.input = item :: rest) :
    exec (.ldr rd rm k) s = .next
      (((s.setInput rest).emit (.inInt (item.number.getD 0))).setReg rd (BitVec.ofInt 16 (item.number.getD 0))) :=
  exec_ldr_of_memRead ha ((memRead_intIn s).trans (intIn_item s hi))

/-- Settles O26: the character code is zero-extended. -/
theorem ldrReadsCharacterPort : Obligations.LdrReadsCharacterPort := by
  intro rd rm k s item rest ha hi
  rw [exec_ldr_charIn (effectiveAddress_eq_of_toNat (a := ioCharIn) ha) hi, BitVec.ofNat_toNat]
  rfl

/-- An integer truncated to 16 bits is its remainder (R59). -/
theorem ofInt_eq_ofNat_emod (n : Int) : BitVec.ofInt 16 n = BitVec.ofNat 16 (n % 65536).toNat := by
  apply BitVec.eq_of_toNat_eq
  rw [BitVec.toNat_ofInt, BitVec.toNat_ofNat]
  omega

/-- Settles O27: the integer is echoed whole and written truncated. -/
theorem ldrReadsIntegerPort : Obligations.LdrReadsIntegerPort := by
  intro rd rm k s item rest ha hi
  rw [exec_ldr_intIn (effectiveAddress_eq_of_toNat (a := ioIntIn) ha) hi, ← ofInt_eq_ofNat_emod]
  rfl

/-- Settles O28: at end of input the port answers with its free value or holds, whichever it is. -/
theorem ldrAtEndOfInput : Obligations.LdrAtEndOfInput := by
  refine fun rd rm k s hi he => ⟨fun ha => ?char, fun ha => ?int⟩
  case char =>
    have hread := (memRead_charIn s).trans (charIn_atEnd s hi he)
    have hea := effectiveAddress_eq_of_toNat (a := ioCharIn) ha
    cases h : Config.charInAtEnd s.draws with
    | none => exact exec_ldr_of_held hea (by rw [hread, h]; rfl)
    | some v => exact exec_ldr_of_memRead hea (by rw [hread, h]; rfl)
  case int =>
    have hread := (memRead_intIn s).trans (intIn_atEnd s hi he)
    have hea := effectiveAddress_eq_of_toNat (a := ioIntIn) ha
    cases h : Config.intInAtEnd s.draws with
    | none => exact exec_ldr_of_held hea (by rw [hread, h]; rfl)
    | some n => exact exec_ldr_of_memRead hea (by rw [hread, h]; rfl)

/-- LDR's answer: the destination, and what the router's read changes, or the same state (R140, R62). -/
theorem exec_ldr_cases {rd rm : Reg} {k : BitVec 4} {s t : State} (h : exec (.ldr rd rm k) s = .next t) :
    (∃ v u, s.memRead (s.effectiveAddress rm k) = some (v, u) ∧ t = u.setReg rd v) ∨ t = s := by
  cases hread : s.memRead (s.effectiveAddress rm k) with
  | none =>
    rw [exec_ldr_of_held rfl hread] at h
    exact .inr (Host.Outcome.next.inj h).symm
  | some p =>
    rw [exec_ldr_of_memRead (v := p.1) (t := p.2) rfl hread] at h
    exact .inl ⟨p.1, p.2, rfl, (Host.Outcome.next.inj h).symm⟩

/-- Settles O29: what a read may change is in `memRead_some`. -/
theorem ldrFrame : Obligations.LdrFrame := by
  intro rd rm k s t h
  rcases exec_ldr_cases h with ⟨v, u, hread, rfl⟩ | rfl
  · obtain ⟨inp, n, acc, es, rfl, -⟩ := memRead_some s hread
    exact ⟨fun r hr => reg_setReg_of_ne _ hr.symm v, fun _ => rfl, rfl, rfl, rfl, rfl, rfl, rfl⟩
  · exact ⟨fun _ _ => rfl, fun _ => rfl, rfl, rfl, rfl, rfl, rfl, rfl⟩

/-! ### STR -/

theorem exec_str_memory {k : BitVec 4} {rm rn : Reg} {s : State} (h : (s.effectiveAddress rm k).toNat < memWords) :
    exec (.str k rm rn) s = .next
      ((s.markAccessed (s.effectiveAddress rm k).toNat).setCell (s.effectiveAddress rm k).toNat (s.reg rn)) := by
  rw [exec_str, memWrite_memory s h]

/-- The router's write of the integer output port (R56, R61). -/
theorem memWrite_intOut (s : State) (v : Word) : s.memWrite ioIntOut v = s.emit (.outInt v.toInt) := rfl

/-- The router's write of an address that is neither memory nor an output port (R56). -/
theorem memWrite_elsewhere {s : State} {a : Word} (h : ¬ a.toNat < memWords) (h1 : a ≠ ioCharOut) (h2 : a ≠ ioIntOut)
    (v : Word) : s.memWrite a v = s := by
  rw [State.memWrite, if_neg h1, if_neg h2, if_neg h]

/-- STR to the integer output port emits the source register as a signed integer (R61, R141). -/
theorem exec_str_intOut {k : BitVec 4} {rm rn : Reg} {s : State} (h : s.effectiveAddress rm k = ioIntOut) :
    exec (.str k rm rn) s = .next (s.emit (.outInt (s.reg rn).toInt)) := by
  rw [exec_str, h, memWrite_intOut]

/-- Narrowing to a byte takes the remainder already (R60). -/
theorem ofNat_low_byte (n : Nat) : BitVec.ofNat 8 (n % 256) = BitVec.ofNat 8 n :=
  BitVec.eq_of_toNat_eq (by simp)

/-- Settles O30: the router's cases in their order. -/
theorem strResult : Obligations.StrResult := by
  intro k rm rn s ea hea
  rw [← effectiveAddress_toNat] at hea
  subst hea
  split
  case isTrue h =>
    rw [exec_str_charOut (BitVec.eq_of_toNat_eq h), ofNat_low_byte]
    rfl
  split
  case isTrue h => exact exec_str_intOut (BitVec.eq_of_toNat_eq h)
  split
  case isTrue h => exact exec_str_memory h
  case isFalse hchar hint h =>
    exact congrArg Host.Outcome.next (memWrite_elsewhere h (fun e => hchar (congrArg BitVec.toNat e))
      (fun e => hint (congrArg BitVec.toNat e)) _)

/-- Settles O32: the sign of a word changes at 32768. -/
theorem integerOutputIsSigned : Obligations.IntegerOutputIsSigned := by
  intro k rm rn s ha
  rw [exec_str_intOut (effectiveAddress_eq_of_toNat (a := ioIntOut) ha), toInt_eq_of_half (half := 32768) rfl]
  rfl

/-- Settles O36: every instruction answers a next state, and none but HALT changes the status. -/
theorem dataAccessNeverEndsTheRun : Obligations.DataAccessNeverEndsTheRun := by
  intro i s hi
  obtain ⟨t, ht, -⟩ := exec_next i s
  have hne : i ≠ .halt := by
    rintro rfl
    simp at hi
  exact ⟨t, ht, status_of_exec hne ht⟩

/-! ### The input reads of a cycle -/

/-- The address of an input port, from its number (R53). -/
theorem effectiveAddress_eq_port {s : State} {rm : Reg} {k : BitVec 4}
    (h : ((s.reg rm).toNat + k.toNat) % 65536 = 0xF000 ∨ ((s.reg rm).toNat + k.toNat) % 65536 = 0xF002) :
    s.effectiveAddress rm k = ioCharIn ∨ s.effectiveAddress rm k = ioIntIn :=
  h.imp (effectiveAddress_eq_of_toNat (a := ioCharIn)) (effectiveAddress_eq_of_toNat (a := ioIntIn))

/-- A port with nothing available holds the read (R62). -/
theorem memRead_port_waits {s : State} {a : Word} (ha : a = ioCharIn ∨ a = ioIntIn) (hi : s.input = [])
    (he : s.inputEnded = false) : s.memRead a = none := by
  rcases ha with rfl | rfl
  · exact (memRead_charIn s).trans (charIn_waits s hi he)
  · exact (memRead_intIn s).trans (intIn_waits s hi he)

/-- Settles O14: a port with nothing available holds the read, and the cycle answers the state before the fetch. -/
theorem inputReadWaits : Obligations.InputReadWaits := by
  intro s rd rm k hrun hpc hdec hport hi he
  apply step_of_held hrun hpc
  rw [fetchWord_eq, hdec]
  exact Option.isNone_iff_eq_none.mpr (memRead_port_waits (effectiveAddress_eq_port hport) hi he)

/-- A cycle whose port read is answered with `v`: the item is consumed, execution goes on at A + 1, and the destination
holds `v` (R58, R59, R62). -/
theorem step_of_port_read {s : State} {rd rm : Reg} {k : BitVec 4} {v : Word} {rest : List InputItem} {e : Event}
    (hrun : s.status = .running) (hpc : s.pc.toNat < memWords) (hdec : decode s.fetchWord = .ldr rd rm k)
    (hread : s.advance.memRead (s.advance.effectiveAddress rm k) = some (v, (s.advance.setInput rest).emit e)) :
    ∃ t, step s = .next t ∧ t.input = rest ∧ t.pc.toNat = s.pc.toNat + 1 ∧ (rd ≠ 15 → t.reg rd = v) := by
  have hheld : heldAt (.ldr rd rm k) s.advance = false := congrArg Option.isNone hread
  have hready : s.ready := ⟨hrun, hpc, by rwa [hdec]⟩
  have hexec := exec_ldr_of_memRead (rd := rd) rfl hread
  rw [← hdec] at hexec
  refine ⟨_, step_of_ready hready hexec, ?_, ?_, fun hrd => ?_⟩
  · rw [input_debugHook]
    rfl
  · rw [pc_debugHook, pc_commit]
    exact toNat_ofNat_pc_succ hpc
  · rw [reg_commit_debugHook_of_ne _ _ hrd, reg_setReg_same]

/-- Settles O15: with the item there, the port answers the same read. -/
theorem inputArrivalCompletesRead : Obligations.InputArrivalCompletesRead := by
  intro s rd rm k item rest hrun hpc hdec hport hi
  have hinput : (s.supplyInput (item :: rest)).advance.input = item :: rest := congrArg (· ++ item :: rest) hi
  rcases hport with hport | hport
  · have hread := (memRead_charIn _).trans (charIn_item _ hinput)
    rw [← effectiveAddress_eq_of_toNat (a := ioCharIn) hport] at hread
    rw [if_pos hport, BitVec.ofNat_toNat]
    exact step_of_port_read (s := s.supplyInput (item :: rest)) hrun hpc hdec hread
  · have hread := (memRead_intIn _).trans (intIn_item _ hinput)
    rw [← effectiveAddress_eq_of_toNat (a := ioIntIn) hport] at hread
    rw [if_neg (by omega)]
    exact step_of_port_read (s := s.supplyInput (item :: rest)) hrun hpc hdec hread

end Sys2Proof.Machine
end

section
/-! PROOFS. PUSH and POP (spec/45_stack.md), and the frame of the two storing instructions. -/

namespace Sys2Proof.Machine

/-! ### PUSH -/

theorem pushedSp_eq (s : State) : s.pushedSp = s.reg 14 - 1 := subResult_eq _ _

theorem poppedSp_eq (s : State) : s.poppedSp = s.reg 14 + 1 := addResult_eq _ _

/-- The word PUSH stores: its register, read after the decrement (R170, D9, log 8). -/
def pushedWord (s : State) (rn : Reg) : Word := if rn = 14 then s.pushedSp else s.reg rn

/-- PUSH is a stack write at the decremented SP (R170). -/
theorem exec_push (ign : BitVec 8) (rn : Reg) (s : State) :
    exec (.push ign rn) s = .next ((s.setReg 14 s.pushedSp).stackWrite s.pushedSp (pushedWord s rn)) := by
  have hword : (s.setReg spReg s.pushedSp).reg rn = pushedWord s rn := by
    rw [reg_setReg]
    exact if_congr eq_comm rfl rfl
  show Host.Outcome.next ((s.setReg spReg s.pushedSp).stackWrite (s.setReg spReg s.pushedSp).sp _) = _
  rw [hword, sp_setReg_spReg]
  rfl

theorem exec_push_memory {ign : BitVec 8} {rn : Reg} {s : State} (h : s.pushedSp.toNat < memWords) :
    exec (.push ign rn) s = .next ((s.setReg 14 s.pushedSp).setCell s.pushedSp.toNat (pushedWord s rn)) := by
  rw [exec_push, State.stackWrite, if_pos h, markStack_eq]

theorem exec_push_elsewhere {ign : BitVec 8} {rn : Reg} {s : State} (h : ¬ s.pushedSp.toNat < memWords) :
    exec (.push ign rn) s = .next (s.setReg 14 s.pushedSp) := by
  rw [exec_push, State.stackWrite, if_neg h]

/-- Settles O47: the store is made where the decremented SP is in memory. -/
theorem pushResult : Obligations.PushResult := by
  intro ign rn s
  rw [← pushedSp_eq]
  split
  · next h => exact exec_push_memory h
  · next h => exact exec_push_elsewhere h

/-! ### POP -/

/-- POP's answer, by its destination (R171): 15 stages the word, 14 is SP itself. -/
theorem exec_pop (rd : Reg) (ign : BitVec 8) (s : State) : exec (.pop rd ign) s = .next (
    if rd = 15 then (s.setReg 14 s.poppedSp).stagePc (s.stackValue s.sp)
    else (s.setReg 14 s.poppedSp).setReg rd (s.stackValue s.sp)) := by
  show execPop rd ign s = _
  rw [execPop, stackTouch_eq]
  rfl

theorem exec_pop_15 (ign : BitVec 8) (s : State) :
    exec (.pop 15 ign) s = .next ((s.setReg 14 s.poppedSp).stagePc (s.stackValue s.sp)) := exec_pop 15 ign s

theorem exec_pop_of_ne_15 {rd : Reg} (h : rd ≠ 15) (ign : BitVec 8) (s : State) :
    exec (.pop rd ign) s = .next ((s.setReg 14 s.poppedSp).setReg rd (s.stackValue s.sp)) := by
  rw [exec_pop, if_neg h]

/-- Settles O48: for destination 14 the second write of SP is the one that counts. -/
theorem popResult : Obligations.PopResult := by
  intro ign rd s v hv
  have hvalue : s.stackValue s.sp = v := hv.symm
  rw [exec_pop, hvalue, poppedSp_eq]
  split
  · rfl
  split
  · next h =>
    rw [h, setReg_setReg]
    rfl
  · rfl

/-- Settles O49: POP writes SP and either the destination or `next_pc`. -/
theorem popFrame : Obligations.PopFrame := by
  intro ign rd s t h
  by_cases hrd : rd = 15
  · subst hrd
    rw [exec_pop_15] at h
    cases h
    exact ⟨fun r hr _ => reg_setReg_of_ne s hr.symm _, fun _ => rfl, rfl, rfl, rfl, rfl, rfl, rfl, rfl, rfl, rfl⟩
  · rw [exec_pop_of_ne_15 hrd] at h
    cases h
    refine ⟨fun r hr hr' => ?_, fun _ => rfl, rfl, rfl, rfl, rfl, rfl, rfl, rfl, rfl, rfl⟩
    rw [reg_setReg_of_ne _ (hr'.resolve_right hrd).symm, reg_setReg_of_ne _ hr.symm]

/-! ### PUSH, then POP -/

/-- A decrement from 1 or more does not wrap (R172). -/
theorem pushedSp_toNat {s : State} (h : 1 ≤ (s.reg 14).toNat) : s.pushedSp.toNat = (s.reg 14).toNat - 1 := by
  have hlt := (s.reg 14).isLt
  rw [State.pushedSp, toNat_subResult]
  show ((s.reg 14).toNat + 65536 - 1) % 65536 = _
  omega

/-- Writing a register with its own value changes nothing. -/
theorem setReg_reg_self (s : State) (r : Reg) : s.setReg r (s.reg r) = s := by
  simp [State.setReg, State.reg]

/-- Writes of a cell and of a register are independent. -/
theorem setReg_setCell (s : State) (a : Nat) (v : Word) (r : Reg) (w : Word) :
    (s.setCell a v).setReg r w = (s.setReg r w).setCell a v := rfl

/-- The state after a PUSH into memory of a register other than SP (R170). -/
def afterPush (s : State) (r : Reg) : State := (s.setReg 14 s.pushedSp).setCell s.pushedSp.toNat (s.reg r)

theorem sp_afterPush (s : State) (r : Reg) : (afterPush s r).sp = s.pushedSp := sp_setReg_spReg s _

/-- POP reads the cell PUSH wrote (R173). -/
theorem stackValue_afterPush {s : State} (h : s.pushedSp.toNat < memWords) (r : Reg) :
    (afterPush s r).stackValue (afterPush s r).sp = s.reg r := by
  rw [sp_afterPush, State.stackValue, if_pos h]
  exact read_write_same ..

/-- The increment undoes the decrement (R173). -/
theorem poppedSp_afterPush (s : State) (r : Reg) : (afterPush s r).poppedSp = s.reg 14 := by
  rw [State.poppedSp, sp_afterPush, addResult_eq, pushedSp_eq]
  exact sub_add_cancel _ _

/-- POP of the register pushed leaves the cell PUSH wrote as the only change (R173). -/
theorem exec_pop_afterPush {s : State} {r : Reg} (hr : r ≠ 15) (hmem : s.pushedSp.toNat < memWords) (ign : BitVec 8) :
    exec (.pop r ign) (afterPush s r) = .next (s.setCell s.pushedSp.toNat (s.reg r)) := by
  rw [exec_pop_of_ne_15 hr, stackValue_afterPush hmem, poppedSp_afterPush, afterPush, setReg_setCell, setReg_setReg,
    setReg_reg_self, setReg_setCell, setReg_reg_self]

/-- Settles O50: POP reads the cell PUSH wrote, and the increment undoes the decrement. -/
theorem pushThenPopRestores : Obligations.PushThenPopRestores := by
  intro g h r s hr hlow hhigh
  have hsp := pushedSp_toNat hlow
  have hmem : s.pushedSp.toNat < memWords := by rw [hsp, memWords_eq]; omega
  have hr14 : r ≠ 14 := by rintro rfl; exact absurd hr (by decide)
  have hr15 : r ≠ 15 := by rintro rfl; exact absurd hr (by decide)
  have hpush : exec (.push g r) s = .next (afterPush s r) := by
    rw [exec_push_memory hmem, pushedWord, if_neg hr14, afterPush]
  refine ⟨_, _, hpush, exec_pop_afterPush hr15 hmem h, rfl, ?_⟩
  rw [hsp]
  rfl

/-! ### The frame of the storing instructions -/

theorem cell_setCell_of_ne (s : State) {a b : Nat} (h : b ≠ a) (v : Word) : (s.setCell a v).cell b = s.cell b := by
  rw [cell_setCell, if_neg h.symm]

theorem cell_setCell_same (s : State) (a : Nat) (v : Word) : (s.setCell a v).cell a = v := by
  rw [cell_setCell, if_pos rfl]

/-- Settles O33: a router write in memory or outside it, and a stack write in memory or outside it. -/
theorem storesTouchOneCell : Obligations.StoresTouchOneCell := by
  refine ⟨fun k rm rn s t h => ?str, fun ign rn s t h => ?push⟩
  case str =>
    rw [exec_str] at h
    cases h
    rcases memWrite_cases s (s.effectiveAddress rm k) (s.reg rn) with ⟨hin, heq⟩ | ⟨hout, es, heq, -⟩
    · rw [heq]
      exact ⟨fun a ha => cell_setCell_of_ne _ ha _, fun _ => cell_setCell_same ..,
        fun h => absurd hin (Nat.not_lt.mpr h),
        fun _ => rfl, rfl, rfl, rfl, rfl, rfl, rfl⟩
    · rw [heq]
      exact ⟨fun _ _ => rfl, fun h => absurd h hout, fun _ _ => rfl, fun _ => rfl, rfl, rfl, rfl, rfl, rfl, rfl⟩
  case push =>
    by_cases hin : s.pushedSp.toNat < memWords
    · rw [exec_push_memory hin] at h
      cases h
      exact ⟨fun a ha => cell_setCell_of_ne _ ha _, fun _ => cell_setCell_same ..,
        fun h => absurd hin (Nat.not_lt.mpr h),
        fun r hr => reg_setReg_of_ne s hr.symm _, reg_setReg_same .., rfl, rfl, rfl, rfl, rfl, rfl, rfl, rfl⟩
    · rw [exec_push_elsewhere hin] at h
      cases h
      exact ⟨fun _ _ => rfl, fun h => absurd h hin, fun _ _ => rfl,
        fun r hr => reg_setReg_of_ne s hr.symm _, reg_setReg_same .., rfl, rfl, rfl, rfl, rfl, rfl, rfl, rfl⟩

end Sys2Proof.Machine
end

section
/-! PROOFS. HALT, the jumps, and where register 15 is after a cycle (R28, R29, R113, R115, R130 to R136). -/

namespace Sys2Proof.Machine

/-! ### HALT and the jumps -/

/-- Settles O18: with the default of D5 HALT stages nothing. -/
theorem haltSetsStatus : Obligations.HaltSetsStatus := fun _ => rfl

/-- JMP is always taken (R130). -/
theorem exec_jmp (off : BitVec 12) (s : State) :
    exec (.jmp off) s = .next { s with nextPc := branchTarget (s.reg 15) off } := rfl

/-- Settles O19: the target staged is `branchTarget`. -/
theorem jmpStagesTarget : Obligations.JmpStagesTarget := exec_jmp

/-- Settles O20: the four conditions on Z and C. -/
theorem conditionalJumpsStageTarget : Obligations.ConditionalJumpsStageTarget := fun off s =>
  ⟨exec_jeq off s, exec_jne off s, exec_jlt off s, exec_jge off s⟩

/-! ### `next_pc` after the handler -/

theorem nextPc_memWrite (s : State) (a v : Word) : (s.memWrite a v).nextPc = s.nextPc := by
  rcases memWrite_cases s a v with ⟨-, h⟩ | ⟨-, es, h, -⟩
  · rw [h]; rfl
  · rw [h]

theorem nextPc_stackWrite (s : State) (a v : Word) : (s.stackWrite a v).nextPc = s.nextPc := by
  rcases stackWrite_cases s a v with ⟨-, h⟩ | ⟨-, h⟩
  · rw [h]; rfl
  · rw [h]

theorem nextPc_of_exec_ldr {rd rm : Reg} {k : BitVec 4} {s t : State} (h : exec (.ldr rd rm k) s = .next t) :
    t.nextPc = s.nextPc := by
  obtain ⟨-, -, -, -, hnext, -⟩ := ldrFrame rd rm k s t h
  exact hnext

/-- The `next_pc` an instruction leaves (R115): a taken jump its target, POP into 15 the word at SP, any other the
staged value. -/
def nextPcAfter (i : Instr) (s : State) : Word :=
  match i with
  | .jmp off => branchTarget (s.reg 15) off
  | .jeq off => if s.z = true then branchTarget (s.reg 15) off else s.nextPc
  | .jne off => if s.z = false then branchTarget (s.reg 15) off else s.nextPc
  | .jlt off => if s.z = false ∧ s.c = true then branchTarget (s.reg 15) off else s.nextPc
  | .jge off => if s.z = true ∨ s.c = false then branchTarget (s.reg 15) off else s.nextPc
  | .pop rd _ => if rd = 15 then s.stackValue s.sp else s.nextPc
  | _ => s.nextPc

/-- An instruction that answers one of two states leaves the `next_pc` of that one. -/
theorem nextPc_of_exec_ite {i : Instr} {s t u v : State} {p : Prop} [Decidable p]
    (hi : exec i s = .next (if p then u else v)) (h : exec i s = .next t) :
    t.nextPc = if p then u.nextPc else v.nextPc := by
  rw [← Host.Outcome.next.inj (hi.symm.trans h)]
  exact apply_ite State.nextPc p u v

theorem nextPc_of_exec {i : Instr} {s t : State} (h : exec i s = .next t) : t.nextPc = nextPcAfter i s := by
  cases i with
  | jmp off => exact Host.Outcome.next.inj h ▸ rfl
  | jeq off => exact nextPc_of_exec_ite (exec_jeq off s) h
  | jne off => exact nextPc_of_exec_ite (exec_jne off s) h
  | jlt off => exact nextPc_of_exec_ite (exec_jlt off s) h
  | jge off => exact nextPc_of_exec_ite (exec_jge off s) h
  | pop rd ign => exact nextPc_of_exec_ite (exec_pop rd ign s) h
  | ldr rd rm k => exact nextPc_of_exec_ldr h
  | str k rm rn => exact Host.Outcome.next.inj h ▸ nextPc_memWrite s _ _
  | push ign rn => exact Host.Outcome.next.inj h ▸ nextPc_stackWrite (s.setReg spReg s.pushedSp) _ _
  | halt | mov | add | addi | sub | subi | and | or | shr | shl | cmp => exact Host.Outcome.next.inj h ▸ rfl

/-- Settles O22: `nextPcAfter`, instruction by instruction. -/
theorem onlyTakenBranchesOverrideNextPc : Obligations.OnlyTakenBranchesOverrideNextPc := by
  intro i s t h
  rw [nextPc_of_exec h]
  cases i <;> rfl

/-! ### Register 15 after a cycle -/

/-- Register 15 after a completed cycle is the `next_pc` the handler left (R116). -/
theorem reg_15_of_step {s t : State} (hr : s.ready) (h : step s = .next t) :
    t.reg 15 = nextPcAfter (decode s.fetchWord) s.advance := by
  obtain ⟨u, hu, -⟩ := exec_next (decode s.fetchWord) s.advance
  rw [step_of_ready hr hu] at h
  cases h
  rw [reg_15_commit_debugHook, nextPc_of_exec hu]

theorem nextPc_advance_eq (s : State) : s.advance.nextPc = s.pc + 1 := by
  rw [nextPc_advance, BitVec.ofNat_add, BitVec.ofNat_toNat, BitVec.setWidth_eq]
  rfl

/-- A jump fetched from A in memory is taken to A + 1 plus its offset (R135, D4). -/
theorem branchTarget_advance {s : State} (h : s.pc.toNat < memWords) {n : Nat} (off : BitVec n) :
    branchTarget (s.advance.reg 15) off = BitVec.ofInt 16 (s.pc.toNat + 1 + off.toInt) := by
  have hpc : (s.advance.reg 15).toNat = s.pc.toNat + 1 :=
    (congrArg BitVec.toNat (pc_advance s)).trans (toNat_ofNat_pc_succ h)
  rw [branchTarget, hpc]
  rfl

/-- The word at SP is 0 outside memory (R64), before the fetch and after it. -/
theorem stackValue_advance (s : State) (a : Word) :
    s.advance.stackValue a = if a.toNat < 8192 then s.cell a.toNat else 0 := rfl

theorem sp_advance (s : State) : s.advance.sp = s.sp := reg_advance s (by decide)

/-- Settles O23: what the handler leaves in `next_pc`, on the state after the fetch. -/
theorem programCounterAfterStep : Obligations.ProgramCounterAfterStep := by
  intro s t hr h
  obtain ⟨-, hpc, -⟩ := id hr
  rw [reg_15_of_step hr h]
  cases decode s.fetchWord <;>
    simp only [nextPcAfter, branchTarget_advance hpc, nextPc_advance_eq, z_advance, c_advance, sp_advance,
      stackValue_advance]

/-! ### Register 15 as a destination -/

/-- The frame of the instructions with a destination: they leave every other register and `next_pc` (R28, R30). -/
theorem frame_of_destination {rd rm rn : Reg} {k : BitVec 4} {b : BitVec 8} {i : Instr} {s t : State}
    (hi : i ∈ [.ldr rd rm k, .mov rd b, .add rd rm rn, .addi rd rm k, .sub rd rm rn, .subi rd rm k, .and rd rm rn,
      .or rd rm rn, .shr rd rm k, .shl rd rm k]) (h : exec i s = .next t) :
    (∀ r : Reg, r ≠ rd → t.reg r = s.reg r) ∧ t.nextPc = s.nextPc := by
  by_cases hldr : i = .ldr rd rm k
  · subst hldr
    obtain ⟨hreg, -, -, -, hnext, -⟩ := ldrFrame rd rm k s t h
    exact ⟨hreg, hnext⟩
  · obtain ⟨hreg, -, -, hnext, -⟩ := registerInstructionsFrame rd rm rn k b i s t (by
      simp only [List.mem_cons, hldr, false_or] at hi ⊢
      tauto) h
    exact ⟨hreg, hnext⟩

/-- Settles O24: the handler leaves `next_pc`, and the commit overwrites the destination. -/
theorem writeToRegister15IsLost : Obligations.WriteToRegister15IsLost := by
  intro s t rm rn k b hr h hi
  obtain ⟨u, hu, -⟩ := exec_next (decode s.fetchWord) s.advance
  obtain ⟨hreg, hnext⟩ := frame_of_destination hi hu
  rw [step_of_ready hr hu] at h
  cases h
  refine ⟨?_, fun r hr => ?_⟩
  · rw [reg_15_commit_debugHook, hnext, nextPc_advance_eq]
  · rw [reg_commit_debugHook_of_ne u _ hr, hreg r hr, reg_advance s hr]

end Sys2Proof.Machine
end

section
/-! PROOFS. Which instructions write and read the flags (R30 of spec/10_state.md section 4). -/

namespace Sys2Proof.Machine

/-! ### Instructions that leave the flags -/

theorem flags_memWrite (s : State) (a v : Word) : (s.memWrite a v).z = s.z ∧ (s.memWrite a v).c = s.c := by
  rcases memWrite_cases s a v with ⟨-, h⟩ | ⟨-, es, h, -⟩
  · rw [h]; exact ⟨rfl, rfl⟩
  · rw [h]; exact ⟨rfl, rfl⟩

theorem flags_stackWrite (s : State) (a v : Word) : (s.stackWrite a v).z = s.z ∧ (s.stackWrite a v).c = s.c := by
  rcases stackWrite_cases s a v with ⟨-, h⟩ | ⟨-, h⟩
  · rw [h]; exact ⟨rfl, rfl⟩
  · rw [h]; exact ⟨rfl, rfl⟩

theorem flags_jumpIf (s : State) (taken : Bool) {n : Nat} (off : BitVec n) :
    (s.jumpIf taken off).z = s.z ∧ (s.jumpIf taken off).c = s.c := by
  cases taken <;> exact ⟨rfl, rfl⟩

/-- Opcodes 0 to 4, 14 and 15 leave both flags (R30). -/
theorem flags_of_exec {i : Instr} {s t : State} (hi : i.opcodeNumber < 5 ∨ 13 < i.opcodeNumber)
    (h : exec i s = .next t) : t.z = s.z ∧ t.c = s.c := by
  cases i with
  | add | addi | sub | subi | and | or | shr | shl | cmp => simp [Instr.opcodeNumber] at hi
  | halt | mov => exact Host.Outcome.next.inj h ▸ ⟨rfl, rfl⟩
  | jmp off | jeq off | jne off | jlt off | jge off => exact Host.Outcome.next.inj h ▸ flags_jumpIf s _ off
  | str k rm rn => exact Host.Outcome.next.inj h ▸ flags_memWrite s _ _
  | push ign rn => exact Host.Outcome.next.inj h ▸ flags_stackWrite (s.setReg spReg s.pushedSp) _ _
  | ldr rd rm k =>
    obtain ⟨-, -, hz, hc, -⟩ := ldrFrame rd rm k s t h
    exact ⟨hz, hc⟩
  | pop rd ign =>
    obtain ⟨-, -, -, hz, hc, -⟩ := popFrame ign rd s t h
    exact ⟨hz, hc⟩

/-- The nine instructions that write the flags do not read them (R30). -/
theorem exec_setFlags_of_writer {i : Instr} (hlow : 5 ≤ i.opcodeNumber) (hhigh : i.opcodeNumber ≤ 13) (s : State)
    (z c : Bool) : exec i (s.setFlags z c) = exec i s := by
  cases i with
  | add | addi | sub | subi | and | or | shr | shl | cmp => rfl
  | halt | jmp | jeq | jne | jlt | jge | ldr | str | mov | push | pop => simp [Instr.opcodeNumber] at hlow hhigh

/-! ### Instructions that do not read the flags -/

/-- What a read answers, with other flags. -/
def answerWithFlags (z c : Bool) (o : Option (Word × State)) : Option (Word × State) :=
  o.map fun p => (p.1, p.2.setFlags z c)

theorem charIn_setFlags (s : State) (z c : Bool) : (s.setFlags z c).charIn = answerWithFlags z c s.charIn := by
  rw [charIn_eq, charIn_eq s, answerWithFlags, Option.map_map]
  rfl

theorem intIn_setFlags (s : State) (z c : Bool) : (s.setFlags z c).intIn = answerWithFlags z c s.intIn := by
  rw [intIn_eq, intIn_eq s, answerWithFlags, Option.map_map]
  rfl

theorem memRead_setFlags (s : State) (z c : Bool) (a : Word) :
    (s.setFlags z c).memRead a = answerWithFlags z c (s.memRead a) := by
  unfold State.memRead
  split
  · exact charIn_setFlags s z c
  split
  · exact intIn_setFlags s z c
  split
  · rfl
  · rfl

theorem exec_ldr_setFlags {rd rm : Reg} {k : BitVec 4} {s t : State} (z c : Bool)
    (h : exec (.ldr rd rm k) s = .next t) :
    exec (.ldr rd rm k) (s.setFlags z c) = .next (t.setFlags z c) := by
  have hread := memRead_setFlags s z c (s.effectiveAddress rm k)
  cases hs : s.memRead (s.effectiveAddress rm k) with
  | none =>
    rw [exec_ldr_of_held rfl hs] at h
    cases h
    exact exec_ldr_of_held rfl (hread.trans (congrArg _ hs))
  | some p =>
    rw [exec_ldr_of_memRead (v := p.1) (t := p.2) rfl hs] at h
    cases h
    exact exec_ldr_of_memRead (v := p.1) (t := p.2.setFlags z c) rfl (hread.trans (congrArg _ hs))

theorem memWrite_setFlags (s : State) (z c : Bool) (a v : Word) :
    (s.setFlags z c).memWrite a v = (s.memWrite a v).setFlags z c := by
  unfold State.memWrite
  split
  · rfl
  split
  · rfl
  split
  · rfl
  · rfl

theorem stackWrite_setFlags (s : State) (z c : Bool) (a v : Word) :
    (s.setFlags z c).stackWrite a v = (s.stackWrite a v).setFlags z c := by
  unfold State.stackWrite
  split
  · rfl
  · rfl

theorem exec_pop_setFlags (rd : Reg) (ign : BitVec 8) {s t : State} (z c : Bool) (h : exec (.pop rd ign) s = .next t) :
    exec (.pop rd ign) (s.setFlags z c) = .next (t.setFlags z c) := by
  by_cases hrd : rd = 15
  · subst hrd
    rw [exec_pop_15] at h ⊢
    cases h
    rfl
  · rw [exec_pop_of_ne_15 hrd] at h ⊢
    cases h
    rfl

/-- Apart from the conditional jumps, an instruction that leaves the flags acts the same whatever they are (R30). -/
theorem exec_setFlags_of_not_reader {i : Instr} (hne : i.opcodeNumber ≠ 1)
    (hi : i.opcodeNumber < 5 ∨ 13 < i.opcodeNumber) {s t : State} (z c : Bool) (h : exec i s = .next t) :
    exec i (s.setFlags z c) = .next (t.setFlags z c) := by
  cases i with
  | add | addi | sub | subi | and | or | shr | shl | cmp => simp [Instr.opcodeNumber] at hi
  | jeq | jne | jlt | jge => exact absurd rfl hne
  | halt | mov | jmp => exact Host.Outcome.next.inj h ▸ rfl
  | ldr rd rm k => exact exec_ldr_setFlags z c h
  | str k rm rn => exact Host.Outcome.next.inj h ▸ congrArg _ (memWrite_setFlags s z c _ _)
  | push ign rn =>
    exact Host.Outcome.next.inj h ▸ congrArg _ (stackWrite_setFlags (s.setReg spReg s.pushedSp) z c _ _)
  | pop rd ign => exact exec_pop_setFlags rd ign z c h

/-- Settles O46: the writers, those that do not read, reset and the dump. -/
theorem flagsWrittenByNineInstructions : Obligations.FlagsWrittenByNineInstructions :=
  ⟨fun _ _ _ h hi => flags_of_exec hi h, fun _ s z c hlow hhigh => exec_setFlags_of_writer hlow hhigh s z c,
    fun _ _ _ z c hne hi h => exec_setFlags_of_not_reader hne hi z c h, rfl, rfl, fun _ => ⟨rfl, rfl⟩⟩

end Sys2Proof.Machine
end

section
/-! PROOFS. What a step may change of memory, `accessed` and the streams (R5, R35, R37, R66, R68, R71), the load (R212)
and the state after reset (R39, R210). -/

namespace Sys2Proof.Machine

/-! ### Memory and `accessed` over one instruction -/

/-- LDR keeps memory, and marks at most its effective address, if that is in memory (R66, R140). -/
theorem exec_ldr_touches {rd rm : Reg} {k : BitVec 4} {s t : State} (h : exec (.ldr rd rm k) s = .next t) :
    t.mem = s.mem ∧ (t.accessed = s.accessed ∨
      ((s.effectiveAddress rm k).toNat < memWords ∧ t.accessed = s.accessed.add (s.effectiveAddress rm k).toNat)) := by
  rcases exec_ldr_cases h with ⟨v, u, hread, rfl⟩ | rfl
  · obtain ⟨inp, n, acc, es, rfl, hacc, -⟩ := memRead_some s hread
    exact ⟨rfl, hacc⟩
  · exact ⟨rfl, .inl rfl⟩

/-- Which cell an instruction may write: STR the one at its effective address, PUSH the one at the decremented SP (R66,
R68). -/
def mayWrite (i : Instr) (s : State) (a : Nat) : Prop :=
  (∃ k rm rn, i = .str k rm rn ∧ a = (s.effectiveAddress rm k).toNat ∧ a < 8192) ∨
  (∃ g rn, i = .push g rn ∧ a = s.pushedSp.toNat ∧ a < 8192)

/-- Which address an instruction may mark: LDR and STR the one at their effective address (R35, D6, log 4). -/
def mayMark (i : Instr) (s : State) (a : Nat) : Prop :=
  (∃ k rm rn, i = .str k rm rn ∧ a = (s.effectiveAddress rm k).toNat ∧ a < 8192) ∨
  (∃ rd rm k, i = .ldr rd rm k ∧ a = (s.effectiveAddress rm k).toNat ∧ a < 8192)

/-- What an instruction may change of memory and `accessed` (R35, R66, R68). -/
structure Touches (i : Instr) (s t : State) : Prop where
  cell   : ∀ a, t.cell a ≠ s.cell a → mayWrite i s a
  marked : ∀ a, a ∈ t.accessed → a ∉ s.accessed → mayMark i s a
  kept   : ∀ a, a ∈ s.accessed → a ∈ t.accessed

/-- An instruction that keeps memory and `accessed`. -/
theorem Touches.ofKept {i : Instr} {s t : State} (hmem : t.mem = s.mem) (hacc : t.accessed = s.accessed) :
    Touches i s t :=
  ⟨fun a h => absurd (congrArg (Memory.read · a) hmem) h, fun _ h h' => absurd (hacc ▸ h) h', fun _ h => hacc ▸ h⟩

theorem touches_jumpIf {i : Instr} (s : State) (taken : Bool) {n : Nat} (off : BitVec n) :
    Touches i s (s.jumpIf taken off) := by
  cases taken <;> exact .ofKept rfl rfl

theorem touches_ldr {rd rm : Reg} {k : BitVec 4} {s t : State} (h : exec (.ldr rd rm k) s = .next t) :
    Touches (.ldr rd rm k) s t := by
  obtain ⟨hmem, hacc | ⟨hlt, hacc⟩⟩ := exec_ldr_touches h
  · exact .ofKept hmem hacc
  · refine ⟨fun a ha => absurd (congrArg (Memory.read · a) hmem) ha, fun a ha hna => ?_, fun a ha => ?_⟩
    · rw [hacc, mem_add] at ha
      have heq := ha.resolve_right hna
      exact .inr ⟨rd, rm, k, rfl, heq, heq ▸ hlt⟩
    · rw [hacc, mem_add]
      exact .inr ha

theorem touches_str (k : BitVec 4) (rm rn : Reg) (s : State) :
    Touches (.str k rm rn) s (s.memWrite (s.effectiveAddress rm k) (s.reg rn)) := by
  rcases memWrite_cases s (s.effectiveAddress rm k) (s.reg rn) with ⟨hlt, h⟩ | ⟨-, es, h, -⟩
  · rw [h]
    refine ⟨fun a ha => ?_, fun a ha hna => ?_, fun a ha => (mem_add ..).mpr (.inr ha)⟩
    · have heq : a = (s.effectiveAddress rm k).toNat := of_not_not fun hne => ha (cell_setCell_of_ne _ hne _)
      exact .inl ⟨k, rm, rn, rfl, heq, heq ▸ hlt⟩
    · have heq := ((mem_add ..).mp ha).resolve_right hna
      exact .inl ⟨k, rm, rn, rfl, heq, heq ▸ hlt⟩
  · rw [h]
    exact .ofKept rfl rfl

theorem touches_push {ign : BitVec 8} {rn : Reg} {s t : State} (h : exec (.push ign rn) s = .next t) :
    Touches (.push ign rn) s t := by
  by_cases hlt : s.pushedSp.toNat < memWords
  · rw [exec_push_memory hlt] at h
    cases h
    refine ⟨fun a ha => ?_, fun a ha hna => absurd ha hna, fun a ha => ha⟩
    have heq : a = s.pushedSp.toNat := of_not_not fun hne => ha (cell_setCell_of_ne _ hne _)
    exact .inr ⟨ign, rn, rfl, heq, heq ▸ hlt⟩
  · rw [exec_push_elsewhere hlt] at h
    cases h
    exact .ofKept rfl rfl

theorem touches_pop {rd : Reg} {ign : BitVec 8} {s t : State} (h : exec (.pop rd ign) s = .next t) :
    Touches (.pop rd ign) s t := by
  rw [exec_pop] at h
  cases h
  split
  · exact .ofKept rfl rfl
  · exact .ofKept rfl rfl

/-- Every instruction keeps to what it may touch (R35, R66, R68). -/
theorem exec_touches {i : Instr} {s t : State} (h : exec i s = .next t) : Touches i s t := by
  cases i with
  | jmp off | jeq off | jne off | jlt off | jge off => exact Host.Outcome.next.inj h ▸ touches_jumpIf s _ off
  | ldr rd rm k => exact touches_ldr h
  | str k rm rn => exact Host.Outcome.next.inj h ▸ touches_str k rm rn s
  | push ign rn => exact touches_push h
  | pop rd ign => exact touches_pop h
  | halt | mov | add | addi | sub | subi | and | or | shr | shl | cmp =>
    exact Host.Outcome.next.inj h ▸ .ofKept rfl rfl

theorem pushedSp_advance (s : State) : s.advance.pushedSp = s.pushedSp := by
  rw [State.pushedSp, sp_advance]
  rfl

/-- Settles O51: the handler keeps to what it may touch, and the fetch, the commit and the hook touch nothing. -/
theorem onlyTheseInstructionsTouchMemory : Obligations.OnlyTheseInstructionsTouchMemory := by
  intro s t h
  rcases step_next_cases h with ⟨-, u, hu, -, rfl⟩ | rfl
  · obtain ⟨hcell, hmarked, hkept⟩ := exec_touches hu
    simp only [mayWrite, pushedSp_advance] at hcell
    simp only [cell_debugHook, accessed_debugHook]
    exact ⟨hcell, hmarked, hkept⟩
  · exact ⟨fun _ h => absurd rfl h, fun _ h h' => absurd h h', fun _ h => h⟩

/-- Settles O52: what a handler may change of the streams is in `HandlerFrame`, and the hook appends at most a dump. -/
theorem stepKeepsRunInputs : Obligations.StepKeepsRunInputs := by
  intro s t h
  rcases step_next_cases h with ⟨-, u, -, hframe, rfl⟩ | rfl
  · obtain ⟨es, hdiag, -⟩ := hframe.diag
    refine ⟨?_, ?_, ?_, ?_⟩
    · rw [breakpoints_debugHook]
      exact hframe.breakpoints
    · rw [inputEnded_debugHook]
      exact hframe.inputEnded
    · rw [diag_debugHook, diag_commit, hdiag, List.append_assoc]
      exact ⟨_, rfl⟩
    · rw [input_debugHook]
      exact hframe.input
  · exact ⟨rfl, rfl, ⟨[], List.append_nil _⟩, .inl rfl⟩

/-- Settles O53: `read_write`, on the memory of the state. -/
theorem readGivesLastWrite : Obligations.ReadGivesLastWrite := cell_setCell

/-- Settles O54: the store reaches the cell, and the next cycle fetches from there. -/
theorem storeSeenByNextFetch : Obligations.StoreSeenByNextFetch := by
  intro s t k rm rn hr hdec ha hlt h
  obtain ⟨-, hpc, -⟩ := id hr
  have hexec := exec_str_memory (rn := rn) (show _ < memWords from ha ▸ hlt)
  rw [← hdec, ha] at hexec
  rw [step_of_ready hr hexec] at h
  cases h
  rw [fetchWord_eq, cell_debugHook, pc_debugHook, pc_commit]
  show State.cell _ (BitVec.ofNat 16 (s.pc.toNat + 1)).toNat = _
  rw [toNat_ofNat_pc_succ hpc]
  exact read_write_same ..

/-! ### Reset and the load -/

/-- Settles O55: the sixteen registers one by one; the rest is 0 or empty. -/
theorem resetState : Obligations.ResetState :=
  ⟨by decide, fun _ => rfl, rfl, rfl, rfl, rfl, rfl⟩

/-- A pair whose address is outside memory is ignored (R212). -/
theorem loadPair_outside {s : State} {p : Nat × Nat} (h : 8192 ≤ p.1) : s.loadPair p = s :=
  if_neg (Nat.not_lt.mpr h)

theorem cell_load_of_not_mentioned (s : State) {image : List (Nat × Nat)} {b : Nat} (h : ∀ p ∈ image, p.1 ≠ b) :
    (s.load image).cell b = s.cell b := by
  induction image generalizing s with
  | nil => rfl
  | cons p image ih =>
    rw [List.forall_mem_cons] at h
    rw [load_cons, ih _ h.2, cell_loadPair, if_neg fun e => h.1 e.1]

/-- A load that ends in a pair is the load before it, then that pair (R212). -/
theorem load_append_pair (s : State) (image : List (Nat × Nat)) (p : Nat × Nat) :
    s.load (image ++ [p]) = (s.load image).loadPair p := load_append s image [p]

/-- Settles O56: the last pair by `cell_loadPair`, the pairs before it by `load_append_pair`. -/
theorem loadWritesOnlyMemory : Obligations.LoadWritesOnlyMemory := by
  intro s image a v
  simp only [load_append_pair]
  refine ⟨rfl, fun b hb => cell_load_of_not_mentioned s hb, fun ha => ?_, fun b hb => ?_, fun ha => loadPair_outside ha,
    load_frame s image⟩
  · rw [cell_loadPair, if_pos ⟨rfl, ha⟩]
  · rw [cell_loadPair, if_neg fun e => hb e.1.symm]

end Sys2Proof.Machine
end
